-- ==== Sys2Proof/Word.lean ====
section
/-! DEFINITION. The word types of the block: every value moves as a whole word on a port of its own width
(20_memory.md R32), and every one of them is unsigned but the repeat count (00_scope.md R10). -/

namespace Sys2Proof

/-- A transaction: one 32-bit word (30_encoding.md R39). -/
abbrev Word := BitVec 32

/-- A duration in microseconds, unsigned 16-bit (R10). -/
abbrev Duration := BitVec 16

/-- A count of milliseconds, unsigned 8-bit (R42). -/
abbrev Millis := BitVec 8

/-- A command word, and the accumulator that assembles it: 16 bits, no sub-fields (R22, R83). -/
abbrev Command := BitVec 16

/-- An opaque handler id, 8 bits (R27). -/
abbrev HandlerId := BitVec 8

/-- The repeat count delivered with a word, 8 bits read as signed (R89). -/
abbrev RepeatCount := BitVec 8

end Sys2Proof
end

