-- ==== Sys2Proof/Syntax.lean ====
section
/-! DEFINITION. The transactions of the block: one constructor per row of spec/opcode_table.json
(30_encoding.md R40). An operand has the type of the field it is read from (R42), so that no operand lies outside
its field. -/

namespace Sys2Proof

/-- A transaction (30_encoding.md R40). -/
inductive Instr where
  /-- `TICK`: one count of the timer clock (R51) -/
  | tick
  /-- `OVF_SERVICE`: the overflow interrupt handler runs (R52) -/
  | ovfService
  /-- `INPUT L`: the IR input line takes the level `level`, true = high (R55) -/
  | input (level : Bool)
  /-- `RESET`: the source's `reset()` (R85) -/
  | reset
  /-- `SUBMIT_EDGE d, L`: an injected event (R64) -/
  | submitEdge (duration : Duration) (level : Bool)
  /-- `SUBMIT_EDGE_MILLIS m, L`: an injected event in milliseconds (R65) -/
  | submitEdgeMillis (millis : Millis) (level : Bool)
  /-- `REGISTER_CALLBACK h`: the consumer `handler` takes the slot (R88) -/
  | registerCallback (handler : HandlerId)
  /-- `POWER_ON_RESET` (R92) -/
  | powerOnReset
  deriving DecidableEq, Repr

end Sys2Proof
end

