-- ==== Sys2Proof/WellFormed.lean ====
section
/-! DEFINITION. Which transaction words are well-formed (30_encoding.md R39, R43), said of the word itself and
without the decoder. An `Instr` needs no check of its own: each operand has exactly its field's width. -/

namespace Sys2Proof

/-- The field `OP`, bits 31..28 (R39). -/
def opField (w : Word) : BitVec 4 := w.extractLsb' 28 4

/-- The operation codes that are not reserved: 0x1 to 0x8 (R40). -/
def legalOp (op : BitVec 4) : Bool := decide (1#4 ≤ op) && decide (op ≤ 8#4)

/-- The bits that R39 reserves under an operation code: [27:17] always, [16] where `L` is no operand, and the low
bits that no operand uses. -/
def reservedBits (op : BitVec 4) : Word :=
  if op = 3#4 then 0x0FFEFFFF#32
  else if op = 5#4 then 0x0FFE0000#32
  else if op = 6#4 then 0x0FFEFF00#32
  else if op = 7#4 then 0x0FFFFF00#32
  else 0x0FFFFFFF#32

/-- A word is well-formed when its `OP` is not reserved and every bit reserved under it is 0 (R43). -/
def wellFormedWord (w : Word) : Bool :=
  legalOp (opField w) && (w &&& reservedBits (opField w) == 0#32)

end Sys2Proof
end

