-- ==== Sys2Proof/Decode.lean ====
section
/-! DEFINITION. The decoder of transaction words, total on every 32-bit word (30_encoding.md R41 to R44), and after
it the encoder, written from the patterns of R41. -/

namespace Sys2Proof

/-- A row of R41: a word selects it exactly when `(w AND mask) = pattern`. -/
structure Row where
  pattern : Word
  mask : Word
  deriving DecidableEq, Repr

/-- Why a word is ill-formed (R43). -/
inductive DecodeError where
  /-- `OP` is 0x0 or 0x9 to 0xF -/
  | reservedOp (op : BitVec 4)
  /-- a bit that R39 reserves under `OP` is 1 -/
  | reservedBit (op : BitVec 4)
  deriving DecidableEq, Repr

def rowTick : Row := ⟨0x10000000#32, 0xFFFFFFFF#32⟩
def rowOvfService : Row := ⟨0x20000000#32, 0xFFFFFFFF#32⟩
def rowInput : Row := ⟨0x30000000#32, 0xFFFEFFFF#32⟩
def rowReset : Row := ⟨0x40000000#32, 0xFFFFFFFF#32⟩
def rowSubmitEdge : Row := ⟨0x50000000#32, 0xFFFE0000#32⟩
def rowSubmitEdgeMillis : Row := ⟨0x60000000#32, 0xFFFEFF00#32⟩
def rowRegisterCallback : Row := ⟨0x70000000#32, 0xFFFFFF00#32⟩
def rowPowerOnReset : Row := ⟨0x80000000#32, 0xFFFFFFFF#32⟩

/-- The rows of R41, in the table's order. -/
def rows : List Row :=
  [rowTick, rowOvfService, rowInput, rowReset, rowSubmitEdge, rowSubmitEdgeMillis, rowRegisterCallback,
    rowPowerOnReset]

/-- `w` selects the row `r` (R41). -/
def Row.selects (r : Row) (w : Word) : Bool := w &&& r.mask == r.pattern

/-- The row an instruction's words select. -/
def rowOf : Instr → Row
  | .tick => rowTick
  | .ovfService => rowOvfService
  | .input _ => rowInput
  | .reset => rowReset
  | .submitEdge _ _ => rowSubmitEdge
  | .submitEdgeMillis _ _ => rowSubmitEdgeMillis
  | .registerCallback _ => rowRegisterCallback
  | .powerOnReset => rowPowerOnReset

/-- The operand `L = w[16]`, 1 = true (R42). -/
def levelField (w : Word) : Bool := w.getLsbD 16

/-- The operand `D = w[15:0]` (R42). -/
def durationField (w : Word) : Duration := w.extractLsb' 0 16

/-- The operand `M = w[7:0]` (R42). -/
def millisField (w : Word) : Millis := w.extractLsb' 0 8

/-- The operand `H = w[7:0]` (R42). -/
def handlerField (w : Word) : HandlerId := w.extractLsb' 0 8

/-- Why a word that selects no row is refused (R43). -/
def rejection (w : Word) : DecodeError :=
  if legalOp (opField w) then .reservedBit (opField w) else .reservedOp (opField w)

/-- The decoder: the transaction of the row the word selects, its operands taken as unsigned fields (R41, R42), or
the reason the word is ill-formed (R43). -/
def decode (w : Word) : Except DecodeError Instr :=
  if rowTick.selects w then .ok .tick
  else if rowOvfService.selects w then .ok .ovfService
  else if rowInput.selects w then .ok (.input (levelField w))
  else if rowReset.selects w then .ok .reset
  else if rowSubmitEdge.selects w then .ok (.submitEdge (durationField w) (levelField w))
  else if rowSubmitEdgeMillis.selects w then .ok (.submitEdgeMillis (millisField w) (levelField w))
  else if rowRegisterCallback.selects w then .ok (.registerCallback (handlerField w))
  else if rowPowerOnReset.selects w then .ok .powerOnReset
  else .error (rejection w)

/-- The operand `L` in its place, bit 16 (R39). -/
def levelBits (level : Bool) : Word := if level then 0x00010000#32 else 0#32

/-- The encoder: the pattern of R41 with each operand in its place; `D`, `M` and `H` stand from bit 0 up (R39). -/
def encode : Instr → Word
  | .tick => rowTick.pattern
  | .ovfService => rowOvfService.pattern
  | .input level => rowInput.pattern ||| levelBits level
  | .reset => rowReset.pattern
  | .submitEdge duration level => rowSubmitEdge.pattern ||| levelBits level ||| duration.setWidth 32
  | .submitEdgeMillis millis level => rowSubmitEdgeMillis.pattern ||| levelBits level ||| millis.setWidth 32
  | .registerCallback handler => rowRegisterCallback.pattern ||| handler.setWidth 32
  | .powerOnReset => rowPowerOnReset.pattern

/-- The instruction the decoder reads from the `nbits` low bits of `w`, numbered as the opcode table numbers them,
every bit above them 0. A transaction is one 32-bit word that moves whole (R32, R39), so no byte order enters. -/
def decodeTableWord (nbits w : Nat) : Option Instr :=
  (decode (BitVec.ofNat 32 (w % 2 ^ nbits))).toOption

end Sys2Proof
end

