-- ==== Sys2Proof/Config.lean ====
section
/-! DEFINITION. The configuration record of 00_scope.md R6: fixed for a run, read by the machine and written by
no transaction. A row the spec leaves OPEN is an opaque constant below, of which nothing can be proved. -/

namespace Sys2Proof

/-- How a duration is converted when exactly one overflow was counted (R6, R54; conflict C8). -/
inductive OneOvfMode where
  /-- convert only the ticks since the wrap: the literal reading of the source, and the default -/
  | ticksOnly
  /-- add the full period before them -/
  | addPeriod
  deriving DecidableEq, Repr

/-- A tolerance window, exclusive on both bounds (R11). The bounds are 16-bit values, so that each is below 65536
as R7 asks and can be compared with a duration. -/
structure Window where
  lo : Duration
  hi : Duration
  deriving DecidableEq, Repr

/-- The configuration record, one field per row of R6. -/
structure Config where
  /-- `TIMER_WIDTH` (W): a timer period is 2^W ticks -/
  timerWidth : Nat
  /-- `TICK_NUM`: microseconds per tick are `TICK_NUM / TICK_DEN` -/
  tickNum : Nat
  /-- `TICK_DEN` -/
  tickDen : Nat
  /-- `ONE_OVF_MODE` -/
  oneOvfMode : OneOvfMode
  /-- `OVF_WIDTH`: the overflow counter saturates at 2^OVF_WIDTH − 1 -/
  ovfWidth : Nat
  /-- `SAT_MAX` -/
  satMax : Duration
  /-- `CAPTURE_CLEARS_OVF_PENDING` -/
  captureClearsOvfPending : Bool
  /-- `INIT_EDGE_SEL`, true = rising -/
  initEdgeSel : Bool
  /-- `INIT_IR_LEVEL`, true = logical high -/
  initIrLevel : Bool
  /-- `HIGH_ENDING_LEVEL`: the `edgeLevel` of an edge that ends a logical-high pulse -/
  highEndingLevel : Bool
  /-- `PREAMBLE_MIN` -/
  preambleMin : Duration
  /-- `SYNC_HIGH_LO`, `SYNC_HIGH_HI` -/
  syncHigh : Window
  /-- `SYNC_LOW_LO`, `SYNC_LOW_HI` -/
  syncLow : Window
  /-- `HEADER_HIGH_LO`, `HEADER_HIGH_HI` -/
  headerHigh : Window
  /-- `BIT1_LO`, `BIT1_HI` -/
  bit1 : Window
  /-- `BIT1_LO_INCLUSIVE` -/
  bit1LoInclusive : Bool
  /-- `WORD_BITS` -/
  wordBits : Nat
  /-- `MILLIS_CAP` -/
  millisCap : Nat
  /-- `MILLIS_SCALE` -/
  millisScale : Nat
  /-- `REPEAT_COUNT` -/
  repeatCount : RepeatCount
  deriving DecidableEq, Repr

/-- A window that admits an order of its bounds: `LO < HI` (R7). -/
abbrev Window.wf (w : Window) : Prop := w.lo < w.hi

/-- The constraints of R7. That every threshold is below 65536 holds by its type. The bounds on `WORD_BITS` are
DEDUCED from R13 and R23, a 16-bit accumulator and a count that never exceeds 16 (log entry 8). -/
abbrev Config.wf (c : Config) : Prop :=
  1 ≤ c.timerWidth ∧ 1 ≤ c.tickNum ∧ 1 ≤ c.tickDen ∧ 2 ≤ c.ovfWidth ∧
  c.syncHigh.wf ∧ c.syncLow.wf ∧ c.headerHigh.wf ∧ c.bit1.wf ∧
  c.millisCap * c.millisScale ≤ 65535 ∧ 1 ≤ c.wordBits ∧ c.wordBits ≤ 16

/-- The OPEN width of the timer, less one: every width from 1 up is a value of it (R6, decision D5). -/
opaque Config.openTimerWidthLessOne : Nat

/-- The OPEN numerator of the tick scale, less one (R6, decision D6). -/
opaque Config.openTickNumLessOne : Nat

/-- The OPEN denominator of the tick scale, less one (R6, decision D6). -/
opaque Config.openTickDenLessOne : Nat

/-- The OPEN capture polarity at power-on (R6, decision D16). -/
opaque Config.openInitEdgeSel : Bool

/-- The OPEN level of the input line at power-on (R6, decision D26). -/
opaque Config.openInitIrLevel : Bool

/-- The configuration of R6 with the five OPEN parameters as arguments and every other row at its default. -/
def Config.atDefaults (timerWidth tickNum tickDen : Nat) (initEdgeSel initIrLevel : Bool) : Config where
  timerWidth := timerWidth
  tickNum := tickNum
  tickDen := tickDen
  oneOvfMode := .ticksOnly
  ovfWidth := 8
  satMax := 0xFFFF#16
  captureClearsOvfPending := false
  initEdgeSel := initEdgeSel
  initIrLevel := initIrLevel
  highEndingLevel := false
  preambleMin := 10000#16
  syncHigh := ⟨150#16, 250#16⟩
  syncLow := ⟨900#16, 1100#16⟩
  headerHigh := ⟨150#16, 250#16⟩
  bit1 := ⟨500#16, 600#16⟩
  bit1LoInclusive := false
  wordBits := 16
  millisCap := 65
  millisScale := 1000
  repeatCount := 1#8

/-- The configuration of the machine after reset: the defaults of R6, and the opaque constants in the OPEN rows. -/
def Config.hardware : Config :=
  Config.atDefaults (Config.openTimerWidthLessOne + 1) (Config.openTickNumLessOne + 1)
    (Config.openTickDenLessOne + 1) Config.openInitEdgeSel Config.openInitIrLevel

end Sys2Proof
end

