-- ==== Sys2Proof/Machine/State.lean ====
section
/-! DEFINITION. The state record of 10_state.md R13, as plain data, beside the three fields the model adds: the
configuration, the transactions to come, and what the consumer does inside its callbacks. -/

namespace Sys2Proof.Machine

/-- The decoder's states: exactly one is active at any time (R21). -/
inductive DecoderState where
  | preamble
  | syncHigh
  | syncLow
  | headerHigh
  | bitAccumulate
  deriving DecidableEq, Repr

/-- One use of the word output port (R28): who held the slot, the word, the repeat count. -/
structure OutEvent where
  handler : Option HandlerId
  word : Command
  repeatCount : RepeatCount
  deriving DecidableEq, Repr

/-- A call of one of the block's entry points, tried by the consumer from inside its callback (R90). -/
inductive ConsumerCall where
  | reset
  | submitEdge (duration : Duration) (level : Bool)
  | submitEdgeMillis (millis : Millis) (level : Bool)
  | registerCallback (handler : HandlerId)
  deriving DecidableEq, Repr

/-- The state (R13). The counters `cnt`, `ovfCount` and `bitCount` are natural numbers whose widths, two of them
parameters, are bounded by `State.Inv` (log entry 9). -/
structure State where
  /-- the edge-capture counter, `TIMER_WIDTH` bits (R15) -/
  cnt : Nat
  /-- the pending flag of the overflow interrupt (R16) -/
  ovfPending : Bool
  /-- the overflow counter, `OVF_WIDTH` bits (R17) -/
  ovfCount : Nat
  /-- the polarity of the next capture, true = rising (R18) -/
  edgeSel : Bool
  /-- the status output pin (R19) -/
  statusOut : Bool
  /-- the last level of the IR input line, true = high (R20) -/
  irIn : Bool
  /-- the decoder's state (R21) -/
  st : DecoderState
  /-- the value of the bit accumulator (R22) -/
  acc : Command
  /-- the number of bits collected in the current word, 5 bits (R23) -/
  bitCount : Nat
  /-- the consumer slot (R27) -/
  handler : Option HandlerId
  /-- the sticky mark of a refused transaction (R29) -/
  refused : Bool
  /-- the output log, oldest event first (R28) -/
  out : List OutEvent
  /-- MODEL: the configuration record of R6, which no transaction changes (log entry 5) -/
  cfg : Config
  /-- MODEL: the transaction words not yet applied, next first (R39, R122; log entry 1) -/
  stream : List Word
  /-- MODEL: for each callback to come, the calls the consumer tries from inside it (R90; log entry 4) -/
  consumer : List (List ConsumerCall)
  deriving DecidableEq, Repr

/-- The block has no fault outcome (00_scope.md R9, 60_exceptions.md R93): nothing raises one, and the type is
empty (log entry 16). -/
inductive Fault : Type
  deriving DecidableEq, Repr

/-- Why `step` or `exec` answers no next state. -/
inductive Refusal where
  /-- Raised by an arm of `exec` whose instruction has no meaning yet, and by no arm now. Safe. -/
  | notModelled (mnemonic : String)
  /-- Raised by `step` when no transaction is left: a run ends after its last word (R122). Safe: the block makes no
  step of its own (log entry 2). -/
  | endOfRun
  deriving DecidableEq, Repr

/-- The power-on state under a configuration (R30, R107), with no transaction to come and a consumer that makes no
call from inside a callback. -/
def State.powerOn (cfg : Config) : State where
  cnt := 0
  ovfPending := false
  ovfCount := 0
  edgeSel := cfg.initEdgeSel
  statusOut := cfg.initEdgeSel
  irIn := cfg.initIrLevel
  st := .preamble
  acc := 0#16
  bitCount := 0
  handler := none
  refused := false
  out := []
  cfg := cfg
  stream := []
  consumer := []

/-- The machine right after reset: the power-on state (R107) at the configuration whose OPEN rows are opaque. -/
def State.reset : State := State.powerOn Config.hardware

end Sys2Proof.Machine
end

