-- ==== Sys2Proof/Machine/Flags.lean ====
section
/-! DEFINITION. The conditions and flags of the block: the wrap of the counter and the overflow flag
(40_edge_timer.md R51, R57), the edge comparator (R55), the window comparators (00_scope.md R11), the bit decision
(41_protocol_decoder.md R72) and the resync target (R73). -/

namespace Sys2Proof.Machine

/-- The counter stands at its last value, so that one more tick wraps it (R51). -/
def atLastCount (s : State) : Bool := s.cnt == 2 ^ s.cfg.timerWidth - 1

/-- The overflow flag after a capture: kept, or cleared where the configuration says so (R57, decision D12). -/
def pendingAfterCapture (s : State) : Bool := s.ovfPending && !s.cfg.captureClearsOvfPending

/-- A new level is a transition of the line (R55). -/
def isTransition (level : Bool) (s : State) : Bool := level != s.irIn

/-- A transition to `level` has the polarity the capture unit is set to: rising (to high) or falling (R55). -/
def isSelected (level : Bool) (s : State) : Bool := level == s.edgeSel

/-- `above(d, lo)`: `lo < d`, unsigned (R11). -/
def above (d lo : Duration) : Bool := decide (lo < d)

/-- `in_open(d, lo, hi)`: strictly inside the window, unsigned (R11). -/
def inOpen (d : Duration) (w : Window) : Bool := decide (w.lo < d) && decide (d < w.hi)

/-- `bit(d)`: 1 inside the bit-one window, and at its lower bound where the configuration includes it (R72). -/
def bitOf (c : Config) (d : Duration) : Nat :=
  if (c.bit1.lo < d ∨ (c.bit1LoInclusive = true ∧ d = c.bit1.lo)) ∧ d < c.bit1.hi then 1 else 0

/-- Where a timing failure leads: SyncLow after a high-ending edge, SyncHigh after a low-ending one (R73). -/
def resyncTarget (c : Config) (level : Bool) : DecoderState :=
  if level = c.highEndingLevel then .syncLow else .syncHigh

end Sys2Proof.Machine
end

