-- ==== Sys2Proof/Machine/Operands.lean ====
section
/-! DEFINITION. The values the transactions compute: saturating increment, the tick conversion and the duration of a
capture (40_edge_timer.md R53, R54), the millisecond operand (41_protocol_decoder.md R65), and the code of a decoder
state (10_state.md R21). -/

namespace Sys2Proof.Machine

/-- `sat_inc_N(v) = min(v + 1, 2^N − 1)` (R10). -/
def satInc (n v : Nat) : Nat := min (v + 1) (2 ^ n - 1)

/-- The period of the timer in ticks, 2^W (R6). -/
def period (c : Config) : Nat := 2 ^ c.timerWidth

/-- `conv(t) = min(floor(t × TICK_NUM / TICK_DEN), SAT_MAX)`: exact on naturals, narrowed once at the end, where it
fits 16 bits (R53). -/
def conv (c : Config) (t : Nat) : Duration :=
  BitVec.ofNat 16 (min (t * c.tickNum / c.tickDen) c.satMax.toNat)

/-- `duration(ticks, ovf)`: the sentinel from two counted overflows on, else a conversion (R54). -/
def duration (c : Config) (ticks ovf : Nat) : Duration :=
  if 2 ≤ ovf then c.satMax
  else if ovf = 1 ∧ c.oneOvfMode = .addPeriod then conv c (ticks + period c)
  else conv c ticks

/-- The duration of `SUBMIT_EDGE_MILLIS`: clamped, then rescaled (R65). It fits 16 bits under R7; outside R7 the low
16 bits are taken (log entry 11). -/
def millisToMicros (c : Config) (m : Millis) : Duration :=
  BitVec.ofNat 16 (min m.toNat c.millisCap * c.millisScale)

/-- The 3-bit code of a decoder state (R21, decision D20). -/
def codeOfState : DecoderState → BitVec 3
  | .preamble => 0#3
  | .syncHigh => 1#3
  | .syncLow => 2#3
  | .headerHigh => 3#3
  | .bitAccumulate => 4#3

/-- The decoder state a hardware build reads from a code; the unused codes 5, 6 and 7 are treated as Preamble
(R21, decision D20). -/
def stateOfCode (code : BitVec 3) : DecoderState :=
  if code = 1#3 then .syncHigh
  else if code = 2#3 then .syncLow
  else if code = 3#3 then .headerHigh
  else if code = 4#3 then .bitAccumulate
  else .preamble

end Sys2Proof.Machine
end

