-- ==== Sys2Proof/Machine/Ops.lean ====
section
/-! DEFINITION. The named operations over the state that the transactions share: the stream, refusal, word output,
the decoder `decode(d, lvl)` with its arcs (41_protocol_decoder.md R63 to R76), and the two interrupt handlers
(40_edge_timer.md R52, R57). The block takes no exception (60_exceptions.md R93): a handler's entry and return are
the start and the end of its atomic step, and nothing is saved (R102). -/

namespace Sys2Proof.Machine

/-- The next transaction word and the state without it, or nothing at the end of the run (R39, R122). -/
def fetchWord (s : State) : Option (Word × State) :=
  match s.stream with
  | [] => none
  | w :: rest => some (w, { s with stream := rest })

/-- `refuse`: the sticky mark is set and nothing else changes (00_scope.md R9, R29, R43). -/
def refuse (s : State) : State := { s with refused := true }

/-- A call into the block from inside the consumer's callback is refused, whichever entry point it names (R90). -/
def nestedCall (s : State) (_call : ConsumerCall) : State := refuse s

/-- The consumer's callback, run inside the step that delivers a word (R103): it runs when a handler holds the slot,
and each call it makes into the block is refused (R90). -/
def runCallback (s : State) : State :=
  match s.handler with
  | none => s
  | some _ => (s.consumer.headD []).foldl nestedCall { s with consumer := s.consumer.tail }

/-- `emit(word, rep)`: an event with the slot's value is appended to the log (R28, R89). -/
def emit (word : Command) (rep : RepeatCount) (s : State) : State :=
  { s with out := s.out ++ [⟨s.handler, word, rep⟩] }

/-- `fullReset()`: Preamble with an empty accumulator (R74). -/
def fullReset (s : State) : State := { s with st := .preamble, acc := 0#16, bitCount := 0 }

/-- `resync(lvl)`: the recovery from a timing failure before BitAccumulate (R73). -/
def resync (level : Bool) (s : State) : State :=
  { s with st := resyncTarget s.cfg level, acc := 0#16, bitCount := 0 }

/-- `accumulate(d)`: shift left by one, add the decided bit, count it (R72). -/
def accumulate (d : Duration) (s : State) : State :=
  { s with acc := BitVec.ofNat 16 (s.acc.toNat * 2 + bitOf s.cfg d), bitCount := s.bitCount + 1 }

/-- `complete()`: the word is delivered and the decoder returns to its start (R75). The callback runs last; nothing
it can do reads what `complete` wrote (log entry 4). -/
def complete (s : State) : State := runCallback (fullReset (emit s.acc s.cfg.repeatCount s))

/-- One arc of the state table before BitAccumulate: the successor where the window accepts, else resync (R66). -/
def validate (accepted : Bool) (successor : DecoderState) (level : Bool) (s : State) : State :=
  if accepted then { s with st := successor } else resync level s

/-- The Preamble arc (R67). -/
def arcPreamble (d : Duration) (level : Bool) (s : State) : State :=
  validate (above d s.cfg.preambleMin) .syncHigh level s

/-- The SyncHigh arc (R68). -/
def arcSyncHigh (d : Duration) (level : Bool) (s : State) : State :=
  validate (inOpen d s.cfg.syncHigh) .syncLow level s

/-- The SyncLow arc (R69). -/
def arcSyncLow (d : Duration) (level : Bool) (s : State) : State :=
  validate (inOpen d s.cfg.syncLow) .headerHigh level s

/-- The HeaderHigh arc (R70). -/
def arcHeaderHigh (d : Duration) (level : Bool) (s : State) : State :=
  validate (inOpen d s.cfg.headerHigh) .bitAccumulate level s

/-- The BitAccumulate arc (R71): the overrun guard (R76), else one bit (R72), and the word after its last (R75). -/
def arcBit (d : Duration) (s : State) : State :=
  if s.cfg.wordBits ≤ s.bitCount then fullReset s
  else if (accumulate d s).bitCount = s.cfg.wordBits then complete (accumulate d s)
  else accumulate d s

/-- `decode(d, lvl)`: the single entry point of the decoder runs the arc of the current state (R63). -/
def decodeEvent (d : Duration) (level : Bool) (s : State) : State :=
  match s.st with
  | .preamble => arcPreamble d level s
  | .syncHigh => arcSyncHigh d level s
  | .syncLow => arcSyncLow d level s
  | .headerHigh => arcHeaderHigh d level s
  | .bitAccumulate => arcBit d s

/-- One count of the timer clock: the counter wraps after 2^W − 1 and raises the overflow flag (R51). -/
def countTick (s : State) : State :=
  if atLastCount s then { s with cnt := 0, ovfPending := true } else { s with cnt := s.cnt + 1 }

/-- The overflow interrupt's handler: a pending overflow is counted, with saturation, and its flag cleared; with
none pending it is not entered (R52). -/
def serviceOverflow (s : State) : State :=
  if s.ovfPending then { s with ovfCount := satInc s.cfg.ovfWidth s.ovfCount, ovfPending := false } else s

/-- The timer's part of a capture: the counter and the overflow counter are cleared, the polarity is toggled and
mirrored on the status output (R57, R58, R59). -/
def rearm (s : State) : State :=
  { s with
    cnt := 0
    ovfCount := 0
    ovfPending := pendingAfterCapture s
    edgeSel := !s.edgeSel
    statusOut := !s.edgeSel }

/-- `capture()`: the edge-capture interrupt's handler. The event it forwards is made of the values the timer held
before it was rearmed (R57, R60). -/
def capture (s : State) : State :=
  decodeEvent (duration s.cfg s.cnt s.ovfCount) s.edgeSel (rearm s)

/-- The line takes a level: a repeated level is no edge, a transition is recorded, and one of the selected polarity
is captured in the same step (R55, R56). -/
def lineLevel (level : Bool) (s : State) : State :=
  if isTransition level s then
    if isSelected level s then capture { s with irIn := level } else { s with irIn := level }
  else s

end Sys2Proof.Machine
end

