-- ==== Sys2Proof/Machine/EdgeTimer.lean ====
section
/-! DEFINITION. The environment's transactions `TICK`, `OVF_SERVICE` and `INPUT` (40_edge_timer.md). -/

namespace Sys2Proof.Machine

/-- `TICK` (R51). -/
def execTick (s : State) : Host.Outcome State Fault Refusal := .next (countTick s)

/-- `OVF_SERVICE` (R52). -/
def execOvfService (s : State) : Host.Outcome State Fault Refusal := .next (serviceOverflow s)

/-- `INPUT L` (R55). -/
def execInput (level : Bool) (s : State) : Host.Outcome State Fault Refusal := .next (lineLevel level s)

end Sys2Proof.Machine
end

