-- ==== Sys2Proof/Machine/HostControl.lean ====
section
/-! DEFINITION. The host's transactions that inject no event: `RESET`, `REGISTER_CALLBACK` and `POWER_ON_RESET`
(42_host_control.md). -/

namespace Sys2Proof.Machine

/-- `RESET`: exactly `fullReset()` (R85, R87). -/
def execReset (s : State) : Host.Outcome State Fault Refusal := .next (fullReset s)

/-- `REGISTER_CALLBACK h`: the last registration wins (R88). -/
def execRegisterCallback (handler : HandlerId) (s : State) : Host.Outcome State Fault Refusal :=
  .next { s with handler := some handler }

/-- `POWER_ON_RESET`: every element of R13 but `out` and `refused` (R92). -/
def execPowerOnReset (s : State) : Host.Outcome State Fault Refusal :=
  .next
    (fullReset
      { s with
        cnt := 0
        ovfPending := false
        ovfCount := 0
        edgeSel := s.cfg.initEdgeSel
        statusOut := s.cfg.initEdgeSel
        irIn := s.cfg.initIrLevel
        handler := none })

end Sys2Proof.Machine
end

