-- ==== Sys2Proof/Machine/ProtocolDecoder.lean ====
section
/-! DEFINITION. The host's event injections `SUBMIT_EDGE` and `SUBMIT_EDGE_MILLIS` (41_protocol_decoder.md). Both
enter the decoder directly and leave the timer untouched (decision D32). -/

namespace Sys2Proof.Machine

/-- `SUBMIT_EDGE d, L` (R64). -/
def execSubmitEdge (d : Duration) (level : Bool) (s : State) : Host.Outcome State Fault Refusal :=
  .next (decodeEvent d level s)

/-- `SUBMIT_EDGE_MILLIS m, L` (R65). -/
def execSubmitEdgeMillis (m : Millis) (level : Bool) (s : State) : Host.Outcome State Fault Refusal :=
  .next (decodeEvent (millisToMicros s.cfg m) level s)

end Sys2Proof.Machine
end

