-- ==== Sys2Proof/Machine/Dispatch.lean ====
section
/-! DEFINITION. One arm per transaction (30_encoding.md R40). -/

namespace Sys2Proof.Machine

def exec (i : Instr) (s : State) : Host.Outcome State Fault Refusal :=
  match i with
  | .tick => Sys2Proof.Machine.execTick s
  | .ovfService => Sys2Proof.Machine.execOvfService s
  | .input level => Sys2Proof.Machine.execInput level s
  | .reset => Sys2Proof.Machine.execReset s
  | .submitEdge duration level => Sys2Proof.Machine.execSubmitEdge duration level s
  | .submitEdgeMillis millis level => Sys2Proof.Machine.execSubmitEdgeMillis millis level s
  | .registerCallback handler => Sys2Proof.Machine.execRegisterCallback handler s
  | .powerOnReset => Sys2Proof.Machine.execPowerOnReset s

end Sys2Proof.Machine
end

