-- ==== Sys2Proof/Machine/Transaction.lean ====
section
/-! DEFINITION. One transaction word applied to the state (00_scope.md R9, 30_encoding.md R43). -/

namespace Sys2Proof.Machine

/-- A well-formed word runs its transaction; an ill-formed one is refused, which the spec gives an effect: the mark
`refused` and nothing else (R43, log entry 3). -/
def transact (w : Word) (s : State) : Host.Outcome State Fault Refusal :=
  match decode w with
  | .ok i => exec i s
  | .error _ => .next (refuse s)

/-- `s` with the word of the `nbits` low bits of `w` offered as the next transaction. -/
def offerWord (s : State) (nbits w : Nat) : State :=
  { s with stream := BitVec.ofNat 32 (w % 2 ^ nbits) :: s.stream }

end Sys2Proof.Machine
end

