-- ==== Sys2Proof/Machine/Step.lean ====
section
/-! DEFINITION. One step of the machine: the next transaction of the stream, applied atomically (20_memory.md R33). -/

namespace Sys2Proof.Machine

/-- The next transaction word is taken from the stream and applied; with none left the run has ended (R122). -/
def step (s : State) : Host.Outcome State Fault Refusal :=
  match fetchWord s with
  | none => .refused .endOfRun
  | some (w, rest) => transact w rest

/-- `s` with the instruction of the `nbits` low bits of `w` as the one that `step` runs next (log entry 1). -/
def State.withFetchWord (s : State) (nbits w : Nat) : State := offerWord s nbits w

end Sys2Proof.Machine
end

