-- ==== Sys2Proof/Machine/Assembler.lean ====
section
/-! DEFINITION. The notation of transactions: the assembler lines and their ranges (30_encoding.md R45), the
pseudo-instructions (R46 to R48) and disassembly (R49). What the spec's text leaves open of the lexis is log entry
21. -/

namespace Sys2Proof.Machine

/-- A line, or part of one, as its characters. -/
abbrev Text := List Char

/-- An assembler line with its operands as written, before their ranges are checked (R45 to R48). -/
inductive AsmLine where
  | tick
  | ovfService
  | input (level : Nat)
  | reset
  | submitEdge (duration level : Nat)
  | submitEdgeMillis (millis level : Nat)
  | registerCallback (handler : Nat)
  | powerOnReset
  | ticks (n : Nat)
  | pulse (n level : Nat)
  | submitFrame (word : Nat)
  deriving DecidableEq, Repr

/-- Every operand lies in its range (R45, R46, R48). -/
def AsmLine.wf : AsmLine → Bool
  | .tick | .ovfService | .reset | .powerOnReset | .ticks _ => true
  | .input l => decide (l ≤ 1)
  | .submitEdge d l => decide (d ≤ 65535) && decide (l ≤ 1)
  | .submitEdgeMillis m l => decide (m ≤ 255) && decide (l ≤ 1)
  | .registerCallback h => decide (h ≤ 255)
  | .pulse _ l => decide (l ≤ 1)
  | .submitFrame w => decide (w ≤ 65535)

/-- `TICKS n` (R46). -/
def expandTicks (n : Nat) : List Instr := List.replicate n .tick

/-- `PULSE n, L` (R47). -/
def expandPulse (n : Nat) (level : Bool) : List Instr := expandTicks n ++ [.input level]

/-- The four sync pulses of `SUBMIT_FRAME` (R48). -/
def frameHeader : List Instr :=
  [.submitEdge 12000#16 true, .submitEdge 200#16 false, .submitEdge 1000#16 true, .submitEdge 200#16 false]

/-- The pulse of `SUBMIT_FRAME` that carries the `k`-th data bit in order of arrival, bit 15 − k of the word; the
levels alternate, beginning with 1 (R48). -/
def frameBit (w : Command) (k : Nat) : Instr :=
  .submitEdge (if w.getLsbD (15 - k) then 550#16 else 300#16) (k % 2 == 0)

/-- `SUBMIT_FRAME w`: twenty `SUBMIT_EDGE`s (R48). -/
def expandFrame (w : Command) : List Instr := frameHeader ++ (List.range 16).map (frameBit w)

/-- The transactions of a line, or an assembly error where an operand is out of its range (R45). -/
def expandLine (line : AsmLine) : Option (List Instr) :=
  if line.wf then
    some (match line with
      | .tick => [.tick]
      | .ovfService => [.ovfService]
      | .input l => [.input (l == 1)]
      | .reset => [.reset]
      | .submitEdge d l => [.submitEdge (BitVec.ofNat 16 d) (l == 1)]
      | .submitEdgeMillis m l => [.submitEdgeMillis (BitVec.ofNat 8 m) (l == 1)]
      | .registerCallback h => [.registerCallback (BitVec.ofNat 8 h)]
      | .powerOnReset => [.powerOnReset]
      | .ticks n => expandTicks n
      | .pulse n l => expandPulse n (l == 1)
      | .submitFrame w => expandFrame (BitVec.ofNat 16 w))
  else none

/-- The line that denotes an instruction (R45). -/
def lineOfInstr : Instr → AsmLine
  | .tick => .tick
  | .ovfService => .ovfService
  | .input l => .input l.toNat
  | .reset => .reset
  | .submitEdge d l => .submitEdge d.toNat l.toNat
  | .submitEdgeMillis m l => .submitEdgeMillis m.toNat l.toNat
  | .registerCallback h => .registerCallback h.toNat
  | .powerOnReset => .powerOnReset

/-! ## Reading a line -/

def isBlank (c : Char) : Bool := c == ' ' || c == '\t'

/-- The text without blanks at either end. -/
def trimBlanks (t : Text) : Text := ((t.dropWhile isBlank).reverse.dropWhile isBlank).reverse

/-- The text before a comment, which `;` begins (R45). -/
def beforeComment (t : Text) : Text := t.takeWhile (· != ';')

/-- The parts between commas: one more than there are commas. -/
def splitCommas : Text → List Text
  | [] => [[]]
  | c :: rest =>
    match splitCommas rest with
    | [] => [[c]]
    | part :: parts => if c == ',' then [] :: part :: parts else (c :: part) :: parts

/-- The value of a digit below `base`, in either case for hexadecimal. -/
def digitValue (base : Nat) (c : Char) : Option Nat :=
  let v :=
    if '0' ≤ c ∧ c ≤ '9' then c.toNat - '0'.toNat
    else if 'a' ≤ c ∧ c ≤ 'f' then c.toNat - 'a'.toNat + 10
    else if 'A' ≤ c ∧ c ≤ 'F' then c.toNat - 'A'.toNat + 10
    else base
  if v < base then some v else none

/-- The number that digits write after the value `acc` of those before them. -/
def readDigits (base : Nat) : Text → Nat → Option Nat
  | [], acc => some acc
  | c :: rest, acc =>
    match digitValue base c with
    | some v => readDigits base rest (acc * base + v)
    | none => none

/-- A number, decimal or `0x` hexadecimal, with at least one digit (R45). -/
def parseNumber : Text → Option Nat
  | [] => none
  | ['0', 'x'] => none
  | '0' :: 'x' :: digits => readDigits 16 digits 0
  | digits => readDigits 10 digits 0

/-- The operands of a line, separated by commas (R45). -/
def parseOperands (t : Text) : Option (List Nat) :=
  if (trimBlanks t).isEmpty then some [] else (splitCommas t).mapM fun part => parseNumber (trimBlanks part)

/-- The line of an upper-case mnemonic and its operands (R45 to R48). -/
def lineOf (mnemonic : Text) (operands : List Nat) : Option AsmLine :=
  match operands with
  | [] =>
    if mnemonic = "TICK".toList then some .tick
    else if mnemonic = "OVF_SERVICE".toList then some .ovfService
    else if mnemonic = "RESET".toList then some .reset
    else if mnemonic = "POWER_ON_RESET".toList then some .powerOnReset
    else none
  | [a] =>
    if mnemonic = "INPUT".toList then some (.input a)
    else if mnemonic = "REGISTER_CALLBACK".toList then some (.registerCallback a)
    else if mnemonic = "TICKS".toList then some (.ticks a)
    else if mnemonic = "SUBMIT_FRAME".toList then some (.submitFrame a)
    else none
  | [a, b] =>
    if mnemonic = "SUBMIT_EDGE".toList then some (.submitEdge a b)
    else if mnemonic = "SUBMIT_EDGE_MILLIS".toList then some (.submitEdgeMillis a b)
    else if mnemonic = "PULSE".toList then some (.pulse a b)
    else none
  | _ => none

/-- The assembler line of a text line: none of them for a blank line or a comment, and no answer at all for a text
that is no line (R45). -/
def parseLine (t : Text) : Option (List AsmLine) :=
  let body := trimBlanks (beforeComment t)
  if body.isEmpty then some []
  else
    match parseOperands (body.dropWhile fun c => !isBlank c) with
    | none => none
    | some operands => (lineOf (body.takeWhile fun c => !isBlank c) operands).map fun line => [line]

/-- The words of a text line; none at all on an assembly error (R45). -/
def assembleLine (t : Text) : Option (List Word) :=
  match parseLine t with
  | none => none
  | some lines => (lines.mapM expandLine).map fun parts => parts.flatten.map encode

/-! ## Writing a line -/

/-- A digit of a hexadecimal number, upper case. -/
def hexDigit (n : Nat) : Char := if n < 10 then Char.ofNat (n + 48) else Char.ofNat (n + 55)

/-- The eight hexadecimal digits of a word, most significant first. -/
def hexWord (w : Word) : Text := [28, 24, 20, 16, 12, 8, 4, 0].map fun k => hexDigit ((w.toNat >>> k) % 16)

/-- A number in decimal. -/
def decimal (n : Nat) : Text := Nat.toDigits 10 n

/-- The text of an instruction in the form of R45, numbers in decimal. -/
def printInstr : Instr → Text
  | .tick => "TICK".toList
  | .ovfService => "OVF_SERVICE".toList
  | .input l => "INPUT ".toList ++ decimal l.toNat
  | .reset => "RESET".toList
  | .submitEdge d l => "SUBMIT_EDGE ".toList ++ decimal d.toNat ++ ", ".toList ++ decimal l.toNat
  | .submitEdgeMillis m l => "SUBMIT_EDGE_MILLIS ".toList ++ decimal m.toNat ++ ", ".toList ++ decimal l.toNat
  | .registerCallback h => "REGISTER_CALLBACK ".toList ++ decimal h.toNat
  | .powerOnReset => "POWER_ON_RESET".toList

/-- The text of a word, well-formed or refused (R49). -/
def disassemble (w : Word) : Text :=
  match decode w with
  | .ok i => printInstr i
  | .error _ => ".word 0x".toList ++ hexWord w ++ " ; refused".toList

end Sys2Proof.Machine
end

