-- ==== Sys2Proof/Safety.lean ====
section
/-! DEFINITION. The terms in which claims speak of runs: the start of a run, a run of transactions, the invariant of
the machine, the accepted runs, and what a run shows. -/

namespace Sys2Proof

/-- Every row of the configuration but the OPEN ones stands at the spec's default (00_scope.md R6). -/
abbrev Config.AtDefaults (c : Config) : Prop :=
  c = Config.atDefaults c.timerWidth c.tickNum c.tickDen c.initEdgeSel c.initIrLevel

namespace Machine

/-- The next state of an outcome, where it has one. -/
def nextOf (o : Host.Outcome State Fault Refusal) : Option State :=
  match o with
  | .next s => some s
  | .fault _ => none
  | .refused _ => none

/-- Transactions applied in order, stopping at the first that answers no next state (20_memory.md R34). -/
def runInstrs : List Instr → State → Host.Outcome State Fault Refusal
  | [], s => .next s
  | i :: rest, s =>
    match exec i s with
    | .next t => runInstrs rest t
    | .fault r => .fault r
    | .refused r => .refused r

/-- `k` steps, stopping at the first that answers no next state: the words at the head of the stream, applied in
order (R122). It is the host's `Core.run` of this machine (Laws/Runs.lean). -/
def runSteps : Nat → State → Host.Outcome State Fault Refusal
  | 0, s => .next s
  | k + 1, s =>
    match step s with
    | .next t => runSteps k t
    | .fault r => .fault r
    | .refused r => .refused r

/-- The start of a run: the power-on state, the words of the run, and what the consumer does in its callbacks
(70_reset_and_hazards.md R107, R122). -/
def State.start (cfg : Config) (words : List Word) (consumer : List (List ConsumerCall)) : State :=
  { State.powerOn cfg with stream := words, consumer := consumer }

/-- A claim about a run takes this as a premise (10_state.md R29). -/
abbrev State.Accepted (s : State) : Prop := s.refused = false

/-- The capture unit waits for the transition the line makes next (40_edge_timer.md R56). -/
abbrev State.InPhase (s : State) : Prop := s.edgeSel = !s.irIn

/-- The invariant of the machine: the widths of the counters (R13), the mirrored pin (R26), and the accumulator that
agrees with the decoder's phase (R24, R25). -/
structure State.Inv (s : State) : Prop where
  /-- the configuration meets R7 -/
  cfg_wf : s.cfg.wf
  /-- `cnt` fits `TIMER_WIDTH` bits (R15) -/
  cnt_lt : s.cnt < 2 ^ s.cfg.timerWidth
  /-- `ovfCount` fits `OVF_WIDTH` bits (R17) -/
  ovfCount_lt : s.ovfCount < 2 ^ s.cfg.ovfWidth
  /-- R26 -/
  status_mirrors : s.statusOut = s.edgeSel
  /-- R24 -/
  idle_empty : s.st ≠ .bitAccumulate → s.acc = 0#16 ∧ s.bitCount = 0
  /-- R25, the count -/
  count_below : s.st = .bitAccumulate → s.bitCount < s.cfg.wordBits
  /-- R25, the value -/
  acc_fits : s.st = .bitAccumulate → s.acc.toNat < 2 ^ s.bitCount

end Machine

end Sys2Proof
end

