-- ==== Sys2Proof/Certificates/Slice0/Obligations.lean ====
section
/-! DEFINITION. The statements for the provers. Each docstring names the rules of spec/ it formalises; a clause that
is the model's own names its log entry. -/

open Sys2Proof Sys2Proof.Machine

/-! ## Words -/

/-- Words written out from R41 (vectors E1 to E25 of 95_test_vectors.md) decode as the spec lists them. -/
def Obligations.WrittenOutWordsDecode : Prop :=
  decode 0x10000000#32 = .ok .tick ∧
  decode 0x20000000#32 = .ok .ovfService ∧
  decode 0x30010000#32 = .ok (.input true) ∧
  decode 0x40000000#32 = .ok .reset ∧
  decode 0x5001FFFF#32 = .ok (.submitEdge 65535#16 true) ∧
  decode 0x60000046#32 = .ok (.submitEdgeMillis 70#8 false) ∧
  decode 0x700000FF#32 = .ok (.registerCallback 255#8) ∧
  decode 0x80000000#32 = .ok .powerOnReset ∧
  decode 0x00000000#32 = .error (.reservedOp 0#4) ∧
  decode 0x50020000#32 = .error (.reservedBit 5#4) ∧
  decode 0x90000000#32 = .error (.reservedOp 9#4)

/-- Decoding an encoded instruction gives it back, every operand at every value of its field (R41, R42). -/
def Obligations.DecodeOfEncodeIsTheInstruction : Prop :=
  ∀ i : Instr, decode (encode i) = .ok i

/-- A word that decodes is the encoding of what it decodes to: no other word of the 2^32 stands for it (R41). -/
def Obligations.DecodedWordIsTheEncoding : Prop :=
  ∀ (w : Word) (i : Instr), decode w = .ok i → encode i = w

/-- The well-formedness of a word, said field by field from the table of R39 and the codes of R40. -/
def Obligations.WellFormedWordsFollowTheFieldTable : Prop :=
  ∀ w : Word,
    wellFormedWord w = true ↔
      (1#4 ≤ opField w ∧ opField w ≤ 8#4) ∧
      w.extractLsb' 17 11 = 0#11 ∧
      (opField w ≠ 3#4 → opField w ≠ 5#4 → opField w ≠ 6#4 → w.getLsbD 16 = false) ∧
      (opField w ≠ 5#4 → w.extractLsb' 8 8 = 0#8) ∧
      (opField w ≠ 5#4 → opField w ≠ 6#4 → opField w ≠ 7#4 → w.extractLsb' 0 8 = 0#8)

/-- R44: every word selects exactly one row of R41 and decodes, or is ill-formed, selects none and is rejected. The
spec marks R44 as derived from its decision D2. -/
def Obligations.EveryWordSelectsOneRowOrIsIllFormed : Prop :=
  ∀ w : Word,
    (wellFormedWord w = true ∧ (∃! r : Row, r ∈ rows ∧ r.selects w = true) ∧ ∃ i, decode w = .ok i) ∨
    (wellFormedWord w = false ∧ (∀ r ∈ rows, r.selects w = false) ∧ ∃ e, decode w = .error e)

/-- R43, the spec's decision D3: an ill-formed word at the head of the stream is refused. The state is unchanged but
for the sticky mark, and the run goes on with the next word (log entry 3). -/
def Obligations.IllFormedWordOnlySetsTheMark : Prop :=
  ∀ (s : State) (w : Word) (later : List Word),
    s.stream = w :: later →
    (opField w = 0#4 ∨ 9#4 ≤ opField w ∨ w &&& reservedBits (opField w) ≠ 0#32) →
    step s = .next { s with stream := later, refused := true }

/-! ## Steps and runs -/

/-- A step takes the word at the head of the stream and runs the instruction it decodes to, on the state without that
word (R33, R39). -/
def Obligations.StepRunsTheDecodedInstruction : Prop :=
  ∀ (s : State) (w : Word) (later : List Word) (i : Instr),
    s.stream = w :: later → decode w = .ok i → step s = exec i { s with stream := later }

/-- An instruction offered as the next word is the one the next step runs, and nothing else of the state is touched by
offering it. -/
def Obligations.OfferedInstructionRunsNext : Prop :=
  ∀ (s : State) (i : Instr), step (s.withFetchWord 32 (encode i).toNat) = exec i s

/-- Every transaction answers a next state from every state, leaves the words to come alone and keeps the
configuration: no fault (R9), no mode or enable to ask for (R104), a configuration fixed for the run (R6). -/
def Obligations.EveryTransactionCompletes : Prop :=
  ∀ (i : Instr) (s : State), ∃ t, exec i s = .next t ∧ t.stream = s.stream ∧ t.cfg = s.cfg

/-- R122, the spec's decision D34: a run applies every one of its words, well-formed or not, and ends after the last.
That the step of an ended run answers `endOfRun` is the model's choice (log entry 2). -/
def Obligations.RunEndsAfterItsLastWord : Prop :=
  (∀ s : State, s.stream = [] → step s = .refused .endOfRun) ∧
  ∀ s : State, ∃ t : State,
    runSteps s.stream.length s = .next t ∧ t.stream = []

/-- R34: the state after a sequence of words is the composition of what its parts do. -/
def Obligations.RunsCompose : Prop :=
  ∀ (s : State) (first second : List Word), ∃ t : State,
    runSteps first.length { s with stream := first } = .next t ∧
    runSteps (first ++ second).length { s with stream := first ++ second } =
      runSteps second.length { t with stream := second }

/-! ## EdgeTimer -/

/-- R51: its encoding, the wrap, and the count; nothing else is written. That a period ends by a wrap which raises a
flag is the spec's decisions D5 and D11 (log entry 12). -/
def Obligations.TickCountsAndFlagsTheWrap : Prop :=
  decode 0x10000000#32 = .ok .tick ∧
  ∀ s : State,
    (s.cnt = 2 ^ s.cfg.timerWidth - 1 → exec .tick s = .next { s with cnt := 0, ovfPending := true }) ∧
    (s.cnt ≠ 2 ^ s.cfg.timerWidth - 1 → exec .tick s = .next { s with cnt := s.cnt + 1 })

/-- R52: its encoding, the saturating count of a pending overflow, and the no-op with none pending. The flag and the
saturation are the spec's decisions D11 and D10 (log entries 12 and 17). -/
def Obligations.OvfServiceCountsThePendingOverflow : Prop :=
  decode 0x20000000#32 = .ok .ovfService ∧
  ∀ s : State,
    (s.ovfPending = true →
      exec .ovfService s =
        .next { s with ovfCount := min (s.ovfCount + 1) (2 ^ s.cfg.ovfWidth - 1), ovfPending := false }) ∧
    (s.ovfPending = false → exec .ovfService s = .next s)

/-- `n` ticks add `n` to the counter modulo 2^W and raise the overflow flag exactly when they wrap it, once, however
often they wrap it (R15, R46, R51, R112). -/
def Obligations.TicksAdvanceTheCounterModulo : Prop :=
  ∀ (n : Nat) (s : State), s.cnt < 2 ^ s.cfg.timerWidth →
    runInstrs (expandTicks n) s =
      .next
        { s with
          cnt := (s.cnt + n) % 2 ^ s.cfg.timerWidth
          ovfPending := s.ovfPending || decide (2 ^ s.cfg.timerWidth ≤ s.cnt + n) }

/-- R53: the conversion is exact on naturals, rounds toward zero, saturates at `SAT_MAX`, and loses nothing in 16
bits: the spec's decisions D6 and D7 (log entry 24). -/
def Obligations.ConversionIsExactThenSaturates : Prop :=
  ∀ (c : Config) (t : Nat), (conv c t).toNat = min (t * c.tickNum / c.tickDen) c.satMax.toNat

/-- R54: the three cases of a capture's duration, and the two defaults that R54 names, which are the spec's decisions
D8 and D9 (log entry 7). -/
def Obligations.DurationFollowsTheOverflowCount : Prop :=
  Config.hardware.satMax = 0xFFFF#16 ∧ Config.hardware.oneOvfMode = .ticksOnly ∧
  ∀ (c : Config) (ticks ovf : Nat),
    (2 ≤ ovf → duration c ticks ovf = c.satMax) ∧
    (ovf = 1 → c.oneOvfMode = .addPeriod → duration c ticks ovf = conv c (ticks + 2 ^ c.timerWidth)) ∧
    (ovf ≤ 1 → (ovf = 0 ∨ c.oneOvfMode = .ticksOnly) → duration c ticks ovf = conv c ticks)

/-- R55 with R57: a repeated level does nothing, an unselected transition is only recorded, and a selected one runs
the capture in the same step, which hands the decoder the interval and the polarity before the toggle (R60). The level
input and the surviving overflow flag are the spec's decisions D18 and D12. -/
def Obligations.InputCapturesSelectedTransitions : Prop :=
  (∀ level : Bool,
    decode (0x30000000#32 ||| (if level then 0x00010000#32 else 0#32)) = .ok (.input level)) ∧
  ∀ (s : State) (level : Bool),
    (level = s.irIn → exec (.input level) s = .next s) ∧
    (level ≠ s.irIn → level ≠ s.edgeSel → exec (.input level) s = .next { s with irIn := level }) ∧
    (level ≠ s.irIn → level = s.edgeSel →
      exec (.input level) s =
        .next
          (decodeEvent (duration s.cfg s.cnt s.ovfCount) s.edgeSel
            { s with
              irIn := level
              cnt := 0
              ovfCount := 0
              ovfPending := if s.cfg.captureClearsOvfPending then false else s.ovfPending
              edgeSel := !s.edgeSel
              statusOut := !s.edgeSel }))

/-- R58: every capture leaves the overflow counter at 0 whatever it held, and the injected events leave it alone,
which rests on the spec's decision D32 (log entry 18). The rest of what a capture leaves in the timer stands beside it
(R57, R59); that a pending overflow survives it by default is decision D12 (log entry 24). -/
def Obligations.CaptureRestartsTheInterval : Prop :=
  (∀ (s : State) (level : Bool), level ≠ s.irIn → level = s.edgeSel →
    ∃ t, exec (.input level) s = .next t ∧
      t.cnt = 0 ∧ t.ovfCount = 0 ∧ t.irIn = level ∧ t.edgeSel = !s.edgeSel ∧ t.statusOut = t.edgeSel ∧
      (s.cfg.captureClearsOvfPending = false → t.ovfPending = s.ovfPending)) ∧
  (∀ (s : State) (d : Duration) (level : Bool),
    ∃ t, exec (.submitEdge d level) s = .next t ∧ t.ovfCount = s.ovfCount) ∧
  (∀ (s : State) (m : Millis) (level : Bool),
    ∃ t, exec (.submitEdgeMillis m level) s = .next t ∧ t.ovfCount = s.ovfCount)

/-- R59: a capture inverts the polarity and mirrors it on the pin; nothing else writes either after power-on. -/
def Obligations.OnlyCapturesMoveThePolarity : Prop :=
  (∀ (s t : State) (level : Bool), level ≠ s.irIn → level = s.edgeSel → exec (.input level) s = .next t →
    t.edgeSel = !s.edgeSel ∧ t.statusOut = t.edgeSel) ∧
  ∀ (i : Instr) (s t : State), exec i s = .next t → i ≠ .powerOnReset →
    (∀ level, i = .input level → level = s.irIn ∨ level ≠ s.edgeSel) →
    t.edgeSel = s.edgeSel ∧ t.statusOut = s.statusOut

/-- R56: once the capture unit waits for the line's next transition it goes on doing so under every transaction but
`POWER_ON_RESET`, and every capture puts it in that phase, whatever the phase before. The spec marks it as derived. -/
def Obligations.CapturePhaseTracksTheLine : Prop :=
  (∀ (i : Instr) (s t : State), s.InPhase → i ≠ .powerOnReset → exec i s = .next t → t.InPhase) ∧
  (∀ (s t : State) (level : Bool), level ≠ s.irIn → level = s.edgeSel → exec (.input level) s = .next t →
    t.InPhase)

/-- R62, R110: with two or more counted overflows the interval is `SAT_MAX` whatever the counter holds, and where
`SAT_MAX` lies above `PREAMBLE_MIN` the long pause is accepted by a decoder in Preamble. The spec marks it as derived.
-/
def Obligations.LongPausePassesThePreamble : Prop :=
  (∀ (c : Config) (ticks ovf : Nat), 2 ≤ ovf → duration c ticks ovf = c.satMax) ∧
  Config.hardware.preambleMin < Config.hardware.satMax ∧
  ∀ (s : State) (level : Bool), s.st = .preamble → 2 ≤ s.ovfCount → s.cfg.preambleMin < s.cfg.satMax →
    level ≠ s.irIn → level = s.edgeSel →
    ∃ t, exec (.input level) s = .next t ∧ t.st = .syncHigh ∧ t.out = s.out ∧ t.ovfCount = 0

/-- R100, R111: one pending overflow beside a selected edge, at any overflow count. Serviced first, it counts in the
interval the edge ends, which is then the sentinel where one was counted before; captured first, the interval is one
overflow short and the overflow counts in the next, or is lost where captures clear the flag. Both states are given
whole, the word and the log included: the spec's decisions D11, D12 and D30. -/
def Obligations.OverflowAndCaptureRace : Prop :=
  ∀ (s : State) (level : Bool), s.ovfPending = true → 2 ≤ s.cfg.ovfWidth → level ≠ s.irIn → level = s.edgeSel →
    ∃ a b : State,
      runInstrs [.ovfService, .input level] s = .next a ∧
      runInstrs [.input level, .ovfService] s = .next b ∧
      a =
        { decodeEvent (duration s.cfg s.cnt (min (s.ovfCount + 1) (2 ^ s.cfg.ovfWidth - 1))) s.edgeSel s with
          irIn := level
          cnt := 0
          ovfCount := 0
          ovfPending := false
          edgeSel := !s.edgeSel
          statusOut := !s.edgeSel } ∧
      b =
        { decodeEvent (duration s.cfg s.cnt s.ovfCount) s.edgeSel s with
          irIn := level
          cnt := 0
          ovfCount := if s.cfg.captureClearsOvfPending then 0 else 1
          ovfPending := false
          edgeSel := !s.edgeSel
          statusOut := !s.edgeSel } ∧
      (1 ≤ s.ovfCount → duration s.cfg s.cnt (min (s.ovfCount + 1) (2 ^ s.cfg.ovfWidth - 1)) = s.cfg.satMax)

/-- The clock, the overflow handler and an uncaptured `INPUT` (a repeated level or an unselected transition) neither
read nor write the decoder, the slot, the mark or the log: change those and the step is the same, with the change kept
(R51, R52, R55, R56). -/
def Obligations.TimerTransactionsAreBlindToTheDecoder : Prop :=
  ∀ (i : Instr) (s t : State), exec i s = .next t →
    (i = .tick ∨ i = .ovfService ∨ ∃ level, i = .input level ∧ (level = s.irIn ∨ level ≠ s.edgeSel)) →
    ∀ (st : DecoderState) (acc : Command) (count : Nat) (h : Option HandlerId) (r : Bool) (out : List OutEvent),
      exec i { s with st := st, acc := acc, bitCount := count, handler := h, refused := r, out := out } =
        .next { t with st := st, acc := acc, bitCount := count, handler := h, refused := r, out := out }

/-! ## ProtocolDecoder -/

/-- R67 to R70 with R73: in each state before BitAccumulate the window alone decides; a failure resyncs by the level,
clears the accumulator and emits nothing. The windows at the defaults stand beside them; that a falling edge is the
high-ending one there is the spec's decision D15 (log entries 7 and 20). -/
def Obligations.HeaderArcsAcceptOrResync : Prop :=
  ∀ (s : State) (d : Duration) (level : Bool),
    (s.st = .preamble → s.cfg.preambleMin < d →
      exec (.submitEdge d level) s = .next { s with st := .syncHigh }) ∧
    (s.st = .syncHigh → (s.cfg.syncHigh.lo < d ∧ d < s.cfg.syncHigh.hi) →
      exec (.submitEdge d level) s = .next { s with st := .syncLow }) ∧
    (s.st = .syncLow → (s.cfg.syncLow.lo < d ∧ d < s.cfg.syncLow.hi) →
      exec (.submitEdge d level) s = .next { s with st := .headerHigh }) ∧
    (s.st = .headerHigh → (s.cfg.headerHigh.lo < d ∧ d < s.cfg.headerHigh.hi) →
      exec (.submitEdge d level) s = .next { s with st := .bitAccumulate }) ∧
    ((s.st = .preamble ∧ ¬ s.cfg.preambleMin < d ∨
      s.st = .syncHigh ∧ ¬ (s.cfg.syncHigh.lo < d ∧ d < s.cfg.syncHigh.hi) ∨
      s.st = .syncLow ∧ ¬ (s.cfg.syncLow.lo < d ∧ d < s.cfg.syncLow.hi) ∨
      s.st = .headerHigh ∧ ¬ (s.cfg.headerHigh.lo < d ∧ d < s.cfg.headerHigh.hi)) →
      exec (.submitEdge d level) s =
        .next
          { s with
            st := if level = s.cfg.highEndingLevel then .syncLow else .syncHigh
            acc := 0#16
            bitCount := 0 }) ∧
    (s.cfg.AtDefaults →
      s.cfg.preambleMin = 10000#16 ∧ s.cfg.syncHigh = ⟨150#16, 250#16⟩ ∧ s.cfg.syncLow = ⟨900#16, 1100#16⟩ ∧
      s.cfg.headerHigh = ⟨150#16, 250#16⟩ ∧ s.cfg.highEndingLevel = false)

/-- R72 in R71's arc, before the last bit: the accumulator shifts left by one and takes the decided bit, and the count
goes up. At the defaults the bit is 1 exactly from 501 to 599 µs; that 500 µs is a 0 is the spec's decision D22. -/
def Obligations.BitArcShiftsInTheDecidedBit : Prop :=
  ∀ (s : State) (d : Duration) (level : Bool), s.st = .bitAccumulate → s.bitCount + 1 < s.cfg.wordBits →
    (((s.cfg.bit1.lo < d ∨ (s.cfg.bit1LoInclusive = true ∧ d = s.cfg.bit1.lo)) ∧ d < s.cfg.bit1.hi) →
      exec (.submitEdge d level) s =
        .next { s with acc := BitVec.ofNat 16 (s.acc.toNat * 2 + 1), bitCount := s.bitCount + 1 }) ∧
    (¬ ((s.cfg.bit1.lo < d ∨ (s.cfg.bit1LoInclusive = true ∧ d = s.cfg.bit1.lo)) ∧ d < s.cfg.bit1.hi) →
      exec (.submitEdge d level) s =
        .next { s with acc := BitVec.ofNat 16 (s.acc.toNat * 2), bitCount := s.bitCount + 1 }) ∧
    (s.cfg.AtDefaults →
      (((s.cfg.bit1.lo < d ∨ (s.cfg.bit1LoInclusive = true ∧ d = s.cfg.bit1.lo)) ∧ d < s.cfg.bit1.hi) ↔
        501 ≤ d.toNat ∧ d.toNat ≤ 599))

/-- R75: the last bit delivers the word to whoever holds the slot, with `REPEAT_COUNT`, and returns the decoder to
Preamble with an empty accumulator in the same step; nothing else that the spec gives the machine changes. The
consumer here makes no call from inside its callback (R90 is `ReentrantCallsAreRefused`). -/
def Obligations.LastBitDeliversTheWord : Prop :=
  ∀ (s : State) (d : Duration) (level : Bool), s.st = .bitAccumulate → s.bitCount + 1 = s.cfg.wordBits →
    (s.handler = none ∨ s.consumer.headD [] = []) →
    ∃ t, exec (.submitEdge d level) s = .next t ∧
      t =
        { s with
          st := .preamble
          acc := 0#16
          bitCount := 0
          out :=
            s.out ++
              [⟨s.handler,
                BitVec.ofNat 16
                  (s.acc.toNat * 2 +
                    if (s.cfg.bit1.lo < d ∨ (s.cfg.bit1LoInclusive = true ∧ d = s.cfg.bit1.lo)) ∧
                      d < s.cfg.bit1.hi then 1 else 0),
                s.cfg.repeatCount⟩]
          consumer := t.consumer }

/-- R90, the spec's decision D24 (log entry 4): calls the consumer makes from inside the callback are refused,
whichever they are: the state is the one the completed word leaves, with the mark set. -/
def Obligations.ReentrantCallsAreRefused : Prop :=
  ∀ (s t : State) (d : Duration) (level : Bool) (h : HandlerId) (call : ConsumerCall)
    (calls : List ConsumerCall) (later : List (List ConsumerCall)),
    s.st = .bitAccumulate → s.bitCount + 1 = s.cfg.wordBits → s.handler = some h →
    s.consumer = (call :: calls) :: later →
    exec (.submitEdge d level) { s with consumer := [] :: later } = .next t →
    exec (.submitEdge d level) s = .next { t with refused := true }

/-- R76: entered with a full count, the BitAccumulate arc resets the decoder, takes no bit and emits nothing: the
spec's decision D21 (log entry 19). -/
def Obligations.OverrunGuardDiscardsTheEvent : Prop :=
  ∀ (s : State) (d : Duration) (level : Bool), s.st = .bitAccumulate → s.cfg.wordBits ≤ s.bitCount →
    exec (.submitEdge d level) s = .next { s with st := .preamble, acc := 0#16, bitCount := 0 }

/-- R78: an accepted pulse and a data bit are taken the same way at either level. The spec marks it as derived. -/
def Obligations.AcceptanceIgnoresTheLevel : Prop :=
  ∀ (s : State) (d : Duration),
    (s.st = .bitAccumulate ∨
      s.st = .preamble ∧ s.cfg.preambleMin < d ∨
      s.st = .syncHigh ∧ s.cfg.syncHigh.lo < d ∧ d < s.cfg.syncHigh.hi ∨
      s.st = .syncLow ∧ s.cfg.syncLow.lo < d ∧ d < s.cfg.syncLow.hi ∨
      s.st = .headerHigh ∧ s.cfg.headerHigh.lo < d ∧ d < s.cfg.headerHigh.hi) →
    ∃ t, exec (.submitEdge d true) s = .next t ∧ exec (.submitEdge d false) s = .next t

/-- R64: its encoding, one run of the decoder, and a timer left untouched, which is the spec's decision D32 (log entry
18). -/
def Obligations.SubmitEdgeOnlyRunsTheDecoder : Prop :=
  (∀ (d : Duration) (level : Bool),
    decode (0x50000000#32 ||| (if level then 0x00010000#32 else 0#32) ||| d.setWidth 32) =
      .ok (.submitEdge d level)) ∧
  ∀ (s : State) (d : Duration) (level : Bool),
    ∃ t, exec (.submitEdge d level) s = .next t ∧ t = decodeEvent d level s ∧
      t.cnt = s.cnt ∧ t.ovfPending = s.ovfPending ∧ t.ovfCount = s.ovfCount ∧ t.edgeSel = s.edgeSel ∧
      t.statusOut = s.statusOut ∧ t.irIn = s.irIn ∧ t.handler = s.handler

/-- R65 at every configuration of R7: its encoding, the clamp and the rescaling, and the decoder run on the result. At
the defaults every count from 65 up behaves as 65000 µs (P-8.6). -/
def Obligations.SubmitEdgeMillisClampsAndRescales : Prop :=
  (∀ (m : Millis) (level : Bool),
    decode (0x60000000#32 ||| (if level then 0x00010000#32 else 0#32) ||| m.setWidth 32) =
      .ok (.submitEdgeMillis m level)) ∧
  (∀ (s : State) (m : Millis) (level : Bool), s.cfg.wf →
    ∃ d : Duration, d.toNat = min m.toNat s.cfg.millisCap * s.cfg.millisScale ∧
      exec (.submitEdgeMillis m level) s = .next (decodeEvent d level s) ∧
      exec (.submitEdgeMillis m level) s = exec (.submitEdge d level) s) ∧
  (∀ (s : State) (m : Millis) (level : Bool), s.cfg.AtDefaults → 65 ≤ m.toNat →
    exec (.submitEdgeMillis m level) s = exec (.submitEdge 65000#16 level) s)

/-- R65's corner cases at the defaults: a millisecond event always fails SyncHigh and HeaderHigh, passes SyncLow only
at 1 ms, passes Preamble from 11 ms on, and is a 0 bit in BitAccumulate. The spec marks these as derived. -/
def Obligations.MillisecondEventsFitOneWindow : Prop :=
  ∀ (s : State) (m : Millis) (level : Bool), s.cfg.AtDefaults →
    ∃ t, exec (.submitEdgeMillis m level) s = .next t ∧
      (s.st = .preamble → 11 ≤ m.toNat → t = { s with st := .syncHigh }) ∧
      (s.st = .preamble → m.toNat ≤ 10 → t = resync level s) ∧
      (s.st = .syncHigh ∨ s.st = .headerHigh → t = resync level s) ∧
      (s.st = .syncLow → (t.st = .headerHigh ↔ m = 1#8)) ∧
      (s.st = .bitAccumulate → s.bitCount < 15 →
        t = { s with acc := BitVec.ofNat 16 (s.acc.toNat * 2), bitCount := s.bitCount + 1 })

/-- R84: an event that completes no word shows nothing outside and changes only `st`, `acc` and `bitCount`; a word is
completed in BitAccumulate alone, by the last bit. -/
def Obligations.UnfinishedEventsAreInvisible : Prop :=
  ∀ (s : State) (d : Duration) (level : Bool),
    ¬ (s.st = .bitAccumulate ∧ s.bitCount + 1 = s.cfg.wordBits) →
    ∃ t, exec (.submitEdge d level) s = .next t ∧ decodeEvent d level s = t ∧
      t = { s with st := t.st, acc := t.acc, bitCount := t.bitCount }

/-- R77 and R79: whatever events arrive in BitAccumulate, the ones that fill the word deliver exactly one, the bits
collected before above the bits of the events in order of arrival. With none collected before this is R77's sum. The
spec marks both as derived. -/
def Obligations.RemainingEventsSpellTheWord : Prop :=
  ∀ (s : State) (events : List (Duration × Bool)),
    s.st = .bitAccumulate → s.cfg.wordBits = 16 → s.acc.toNat < 2 ^ s.bitCount →
    events ≠ [] → s.bitCount + events.length = 16 →
    ∃ (t : State) (word : Command),
      runInstrs (events.map fun e => .submitEdge e.1 e.2) s = .next t ∧
      t.out = s.out ++ [⟨s.handler, word, s.cfg.repeatCount⟩] ∧
      t.st = .preamble ∧ t.acc = 0#16 ∧ t.bitCount = 0 ∧
      word.toNat =
        s.acc.toNat * 2 ^ events.length +
          ((List.range events.length).map fun k =>
            bitOf s.cfg (events.getD k (0#16, false)).1 * 2 ^ (events.length - 1 - k)).sum

/-- R48, and P-8.1 with P-8.2: the twenty pulses of `SUBMIT_FRAME w` deliver exactly `w`, from Preamble and from any
state a failed pulse leaves, and leave the timer as it was: derived by the spec, on its decisions D4 and D32. -/
def Obligations.SubmittedFrameDeliversItsWord : Prop :=
  ∀ (s : State) (w : Command), s.cfg.AtDefaults → s.st ≠ .bitAccumulate → s.acc = 0#16 → s.bitCount = 0 →
    ∃ t, runInstrs (expandFrame w) s = .next t ∧
      t.out = s.out ++ [⟨s.handler, w, 1#8⟩] ∧
      t.st = .preamble ∧ t.acc = 0#16 ∧ t.bitCount = 0 ∧ t.handler = s.handler ∧
      t.cnt = s.cnt ∧ t.ovfPending = s.ovfPending ∧ t.ovfCount = s.ovfCount ∧
      t.edgeSel = s.edgeSel ∧ t.statusOut = s.statusOut ∧ t.irIn = s.irIn

/-- The same frame through the timer (R47, R57): a line that holds its level for the length of each pulse, at one tick
per microsecond and a period that no pulse fills, delivers exactly `w` through captures alone: derived, on the spec's
decisions D4 and D18. -/
def Obligations.LineFrameDeliversItsWord : Prop :=
  ∀ (s : State) (w : Command), s.cfg.AtDefaults → s.cfg.tickNum = s.cfg.tickDen → 1 ≤ s.cfg.tickDen →
    12000 < 2 ^ s.cfg.timerWidth → s.cnt = 0 → s.ovfPending = false → s.ovfCount = 0 →
    s.irIn = false → s.edgeSel = true → s.st ≠ .bitAccumulate → s.acc = 0#16 → s.bitCount = 0 →
    ∃ t,
      runInstrs
        (List.flatMap (fun pulse : Nat × Bool => expandPulse pulse.1 pulse.2)
          ([(12000, true), (200, false), (1000, true), (200, false)] ++
            (List.range 16).map fun k => (if w.getLsbD (15 - k) then 550 else 300, k % 2 == 0))) s = .next t ∧
      t.out = s.out ++ [⟨s.handler, w, 1#8⟩] ∧ t.st = .preamble ∧
      t.cnt = 0 ∧ t.ovfPending = false ∧ t.ovfCount = 0 ∧ t.irIn = false ∧ t.edgeSel = true

/-! ## Host control and output -/

/-- R85: its encoding and the decoder rows. That nothing else changes is R87, the spec's decision D28 (log entry 18);
that a second `RESET` changes nothing is R86, which the spec marks as derived. -/
def Obligations.ResetClearsOnlyTheDecoder : Prop :=
  decode 0x40000000#32 = .ok .reset ∧
  ∀ s : State,
    exec .reset s = .next { s with st := .preamble, acc := 0#16, bitCount := 0 } ∧
    ∀ t, exec .reset s = .next t → exec .reset t = .next t

/-- R88: its encoding, the slot and nothing else; only `POWER_ON_RESET` returns the slot to `none`. -/
def Obligations.RegisterCallbackTakesTheSlot : Prop :=
  (∀ h : HandlerId, decode (0x70000000#32 ||| h.setWidth 32) = .ok (.registerCallback h)) ∧
  (∀ (s : State) (h : HandlerId), exec (.registerCallback h) s = .next { s with handler := some h }) ∧
  (∀ (i : Instr) (s t : State), exec i s = .next t → s.handler ≠ none → t.handler = none → i = .powerOnReset) ∧
  (∀ (i : Instr) (s t : State), exec i s = .next t → t.handler ≠ s.handler →
    i = .powerOnReset ∨ ∃ h, i = .registerCallback h)

/-- R92: its encoding and every element but `out` and `refused`; the result does not depend on the elements it writes.
The values are the spec's decision D26 (log entry 13). -/
def Obligations.PowerOnResetWritesAllButTheLog : Prop :=
  decode 0x80000000#32 = .ok .powerOnReset ∧
  ∀ s : State,
    exec .powerOnReset s =
      .next
        { s with
          cnt := 0
          ovfPending := false
          ovfCount := 0
          edgeSel := s.cfg.initEdgeSel
          statusOut := s.cfg.initEdgeSel
          irIn := s.cfg.initIrLevel
          st := .preamble
          acc := 0#16
          bitCount := 0
          handler := none }

/-- R30, R107: the machine after reset. The values are decisions of the spec, the polarity and the level its OPEN
parameters; an empty stream and a consumer that makes no call are the model's choice (log entries 1 and 4). -/
def Obligations.ResetStateHoldsThePowerOnValues : Prop :=
  State.reset.cnt = 0 ∧ State.reset.ovfPending = false ∧ State.reset.ovfCount = 0 ∧
  State.reset.edgeSel = State.reset.cfg.initEdgeSel ∧ State.reset.statusOut = State.reset.cfg.initEdgeSel ∧
  State.reset.irIn = State.reset.cfg.initIrLevel ∧ State.reset.st = .preamble ∧ State.reset.acc = 0#16 ∧
  State.reset.bitCount = 0 ∧ State.reset.handler = none ∧ State.reset.refused = false ∧ State.reset.out = [] ∧
  State.reset.stream = [] ∧ State.reset.consumer = []

/-- R6, R7: the configuration after reset has every row but the OPEN ones at the spec's default, and meets the
constraints whatever the OPEN rows are. -/
def Obligations.ResetConfigurationIsAdmissible : Prop :=
  Config.hardware.AtDefaults ∧ Config.hardware.wf ∧
  ∀ c : Config, c.AtDefaults →
    c.preambleMin = 10000#16 ∧ c.syncHigh = ⟨150#16, 250#16⟩ ∧ c.syncLow = ⟨900#16, 1100#16⟩ ∧
    c.headerHigh = ⟨150#16, 250#16⟩ ∧ c.bit1 = ⟨500#16, 600#16⟩ ∧ c.bit1LoInclusive = false ∧ c.wordBits = 16 ∧
    c.millisCap = 65 ∧ c.millisScale = 1000 ∧ c.repeatCount = 1#8 ∧ c.satMax = 65535#16 ∧ c.ovfWidth = 8 ∧
    c.oneOvfMode = .ticksOnly ∧ c.captureClearsOvfPending = false ∧ c.highEndingLevel = false

/-- The host's transactions, power-on apart, neither read nor write the timer, the polarity, the pin or the line:
change those and the step is the same, with the change kept (R64, R65, R87, R88, R116). -/
def Obligations.HostTransactionsAreBlindToTheTimer : Prop :=
  ∀ (i : Instr) (s t : State), exec i s = .next t →
    (i = .reset ∨ (∃ d level, i = .submitEdge d level) ∨ (∃ m level, i = .submitEdgeMillis m level) ∨
      ∃ h, i = .registerCallback h) →
    ∀ (cnt : Nat) (pending : Bool) (count : Nat) (sel status line : Bool),
      exec i
          { s with
            cnt := cnt, ovfPending := pending, ovfCount := count, edgeSel := sel, statusOut := status, irIn := line } =
        .next
          { t with
            cnt := cnt, ovfPending := pending, ovfCount := count, edgeSel := sel, statusOut := status, irIn := line }

/-- R89, R91, R101: a step appends at most one event, only by completing a word, and the event carries the slot's
value and `REPEAT_COUNT`; no event is ever taken from the log or changed in it. -/
def Obligations.LogGrowsByOneCompletedWord : Prop :=
  ∀ s t : State, step s = .next t →
    t.out = s.out ∨
    (s.st = .bitAccumulate ∧ s.bitCount + 1 = s.cfg.wordBits ∧ t.st = .preamble ∧ t.acc = 0#16 ∧ t.bitCount = 0 ∧
      ∃ word, t.out = s.out ++ [⟨s.handler, word, s.cfg.repeatCount⟩])

/-- R29 with R9: after a step the mark is set exactly when it was set before, the word was ill-formed, or the step
delivered a word to a consumer that called back into the block. No transaction clears it: the spec's decisions D3 and
D24. -/
def Obligations.MarkIsStickyAndHasTwoCauses : Prop :=
  ∀ (s t : State) (w : Word) (later : List Word), s.stream = w :: later → step s = .next t →
    (t.refused = true ↔
      s.refused = true ∨ wellFormedWord w = false ∨
      (t.out ≠ s.out ∧ s.handler ≠ none ∧ s.consumer.headD [] ≠ []))

/-! ## Invariants -/

/-- The invariant holds at reset, and at the start of every run under an admissible configuration. -/
def Obligations.InvariantHoldsAtPowerOn : Prop :=
  State.reset.Inv ∧
  ∀ (c : Config) (words : List Word) (consumer : List (List ConsumerCall)), c.wf →
    (State.start c words consumer).Inv

/-- Every step from every state that meets the invariant keeps it: the counters in their widths (R13), the pin equal
to the polarity (R26), the accumulator in agreement with the decoder's phase (R24, R25). -/
def Obligations.EveryStepKeepsTheInvariant : Prop :=
  ∀ s t : State, s.Inv → step s = .next t → t.Inv

/-- R24, R25, R26: every state a run from power-on reaches, whatever its words, its order and its consumer, under any
admissible configuration with 16-bit words. The overrun guard is therefore never entered. The spec marks all three as
derived. -/
def Obligations.ReachableStatesAgreeWithTheirPhase : Prop :=
  ∀ (c : Config) (words : List Word) (consumer : List (List ConsumerCall)) (n : Nat) (t : State),
    c.wf → c.wordBits = 16 →
    runSteps n (State.start c words consumer) = .next t →
    (t.st ≠ .bitAccumulate → t.acc = 0#16 ∧ t.bitCount = 0) ∧
    (t.st = .bitAccumulate → t.bitCount ≤ 15 ∧ t.acc.toNat < 2 ^ t.bitCount) ∧
    t.statusOut = t.edgeSel

/-! ## Notation -/

/-- R21: the five states have the codes 0 to 4 in the spec's order, each code reads back as its state, and an unused
code is treated as Preamble: the spec's decision D20 (log entry 15). -/
def Obligations.StateCodesReadBack : Prop :=
  codeOfState .preamble = 0#3 ∧ codeOfState .syncHigh = 1#3 ∧ codeOfState .syncLow = 2#3 ∧
  codeOfState .headerHigh = 3#3 ∧ codeOfState .bitAccumulate = 4#3 ∧
  (∀ st : DecoderState, stateOfCode (codeOfState st) = st) ∧
  ∀ code : BitVec 3, 5#3 ≤ code → stateOfCode code = .preamble

/-- R45, R49: what the disassembler prints of a well-formed word reads back as its instruction and assembles to the
same word. The notation is the spec's decision D4, the lexis the model's choice (log entry 21). -/
def Obligations.DisassemblyReadsBack : Prop :=
  ∀ i : Instr,
    parseLine (disassemble (encode i)) = some [lineOfInstr i] ∧
    assembleLine (disassemble (encode i)) = some [encode i]

/-- R45 to R48: an operand outside its range, a pseudo-instruction's too, is an assembly error; in its range the line
denotes its transactions, the twenty of `SUBMIT_FRAME` included. The words of a text that reads as a line are the
encodings of what the line denotes, and there are none on an error: the spec's decision D4 (log entry 21). -/
def Obligations.OutOfRangeOperandsEmitNoWord : Prop :=
  (∀ l, expandLine (.input l) = none ↔ 1 < l) ∧
  (∀ d l, expandLine (.submitEdge d l) = none ↔ 65535 < d ∨ 1 < l) ∧
  (∀ m l, expandLine (.submitEdgeMillis m l) = none ↔ 255 < m ∨ 1 < l) ∧
  (∀ h, expandLine (.registerCallback h) = none ↔ 255 < h) ∧
  (∀ i, expandLine (lineOfInstr i) = some [i]) ∧
  (∀ n, expandLine (.ticks n) = some (List.replicate n .tick)) ∧
  (∀ n l, expandLine (.pulse n l) = none ↔ 1 < l) ∧
  (∀ n l, l ≤ 1 → expandLine (.pulse n l) = some (List.replicate n .tick ++ [.input (l == 1)])) ∧
  (∀ w, expandLine (.submitFrame w) = none ↔ 65535 < w) ∧
  (∀ w, w ≤ 65535 →
    expandLine (.submitFrame w) =
      some
        ([.submitEdge 12000#16 true, .submitEdge 200#16 false, .submitEdge 1000#16 true, .submitEdge 200#16 false] ++
          (List.range 16).map fun k => .submitEdge (if w.testBit (15 - k) then 550#16 else 300#16) (k % 2 == 0))) ∧
  ∀ (text : Text) (line : AsmLine), parseLine text = some [line] →
    assembleLine text = (expandLine line).map fun instrs => instrs.map encode
end

