-- ==== Sys2Proof/Laws/Assembler.lean ====
section
/-! SUPPORT. The small lemmas of the notation: a printed decimal number reads back, and holds no blank, no comma and
no comment mark. -/

namespace Sys2Proof.Machine

theorem digitValue_of_isDigit (c : Char) (h : c.isDigit = true) : digitValue 10 c = some (c.toNat - '0'.toNat) := by
  have inRange : '0' ≤ c ∧ c ≤ '9' := by
    simp only [Char.isDigit, Bool.and_eq_true, decide_eq_true_eq] at h
    exact h
  have hi : c.toNat ≤ '9'.toNat := UInt32.le_iff_toNat_le.1 inRange.2
  have small : c.toNat - '0'.toNat < 10 := by
    have h0 : '0'.toNat = 48 := rfl
    have h9 : '9'.toNat = 57 := rfl
    omega
  simp only [digitValue, if_pos inRange, if_pos small]

theorem readDigits_of_isDigit (digits : Text) (acc : Nat) (h : ∀ c ∈ digits, c.isDigit = true) :
    readDigits 10 digits acc = some (Nat.ofDigitChars 10 digits acc) := by
  induction digits generalizing acc with
  | nil => rfl
  | cons c rest ih =>
    rw [readDigits, digitValue_of_isDigit c (h c (by simp))]
    simp only
    rw [ih _ fun d hd => h d (by simp [hd]), Nat.ofDigitChars, Nat.ofDigitChars, List.foldl_cons, Nat.mul_comm]

theorem decimal_isDigit (n : Nat) : ∀ c ∈ decimal n, c.isDigit = true := fun _ h =>
  Nat.isDigit_of_mem_toDigits (by decide) (by decide) h

theorem decimal_ne_nil (n : Nat) : decimal n ≠ [] := Nat.toDigits_ne_nil

/-- A number printed in decimal reads back (R45, R49). -/
theorem parseNumber_decimal (n : Nat) : parseNumber (decimal n) = some n := by
  have digits := decimal_isDigit n
  have value : readDigits 10 (decimal n) 0 = some n := by
    rw [readDigits_of_isDigit _ _ digits]
    exact congrArg some (Nat.ofDigitChars_toDigits (by decide) (by decide))
  unfold parseNumber
  split
  · exact absurd ‹_› (decimal_ne_nil n)
  · rename_i h
    have : 'x'.isDigit = true := digits 'x' (by rw [h]; simp)
    exact absurd this (by decide)
  · rename_i rest _ h
    have : 'x'.isDigit = true := digits 'x' (by rw [h]; simp)
    exact absurd this (by decide)
  · exact value

theorem isBlank_of_isDigit (c : Char) (h : c.isDigit = true) : isBlank c = false := by
  have ne : c ≠ ' ' ∧ c ≠ '\t' := ⟨by rintro rfl; exact absurd h (by decide), by rintro rfl; exact absurd h (by decide)⟩
  simp [isBlank, ne]

/-- Text that neither begins nor ends with a blank is not trimmed. -/
theorem trimBlanks_eq_self (t : Text) (first : ∀ c, t.head? = some c → isBlank c = false)
    (last : ∀ c, t.getLast? = some c → isBlank c = false) : trimBlanks t = t := by
  have keep : ∀ u : Text, (∀ c, u.head? = some c → isBlank c = false) → u.dropWhile isBlank = u := by
    intro u hu
    cases u with
    | nil => rfl
    | cons c rest => simp [hu c rfl]
  rw [trimBlanks, keep t first, keep t.reverse (by simpa using last), List.reverse_reverse]

theorem trimBlanks_decimal (n : Nat) : trimBlanks (decimal n) = decimal n :=
  trimBlanks_eq_self _ (fun c h => isBlank_of_isDigit c (decimal_isDigit n c (List.mem_of_head? h)))
    (fun c h => isBlank_of_isDigit c (decimal_isDigit n c (List.mem_of_getLast? h)))

theorem trimBlanks_blank_cons (t : Text) : trimBlanks (' ' :: t) = trimBlanks t := rfl

theorem splitCommas_no_comma (t : Text) (h : ',' ∉ t) : splitCommas t = [t] := by
  induction t with
  | nil => rfl
  | cons c rest ih =>
    have hc : c ≠ ',' := fun e => h (by simp [e])
    rw [splitCommas, ih fun m => h (by simp [m])]
    simp [hc]

theorem splitCommas_append (t u : Text) (h : ',' ∉ t) : splitCommas (t ++ ',' :: u) = t :: splitCommas u := by
  have nonempty : ∀ v, splitCommas v ≠ [] := by
    intro v
    cases v with
    | nil => simp [splitCommas]
    | cons c rest => unfold splitCommas; split <;> [simp; (split <;> simp)]
  induction t with
  | nil =>
    rw [List.nil_append, splitCommas]
    cases hu : splitCommas u with
    | nil => exact absurd hu (nonempty u)
    | cons p ps => rfl
  | cons c rest ih =>
    have hc : c ≠ ',' := fun e => h (by simp [e])
    rw [List.cons_append, splitCommas, ih fun m => h (by simp [m])]
    simp [hc]

theorem comma_not_mem_decimal (n : Nat) : ',' ∉ decimal n := fun h =>
  absurd (decimal_isDigit n ',' h) (by decide)

/-! What each instruction with an operand prints: its mnemonic, a blank, its operands. -/

theorem printInstr_input (l : Bool) : printInstr (.input l) = "INPUT".toList ++ ' ' :: decimal l.toNat := rfl

theorem printInstr_registerCallback (h : HandlerId) :
    printInstr (.registerCallback h) = "REGISTER_CALLBACK".toList ++ ' ' :: decimal h.toNat := rfl

theorem printInstr_submitEdge (d : Duration) (l : Bool) :
    printInstr (.submitEdge d l) =
      "SUBMIT_EDGE".toList ++ ' ' :: (decimal d.toNat ++ ", ".toList ++ decimal l.toNat) := by
  have h : printInstr (.submitEdge d l) =
      "SUBMIT_EDGE ".toList ++ decimal d.toNat ++ ", ".toList ++ decimal l.toNat := rfl
  rw [h, List.append_assoc, List.append_assoc, List.append_assoc]
  generalize decimal d.toNat ++ (", ".toList ++ decimal l.toNat) = operands
  rfl

theorem printInstr_submitEdgeMillis (m : Millis) (l : Bool) :
    printInstr (.submitEdgeMillis m l) =
      "SUBMIT_EDGE_MILLIS".toList ++ ' ' :: (decimal m.toNat ++ ", ".toList ++ decimal l.toNat) := by
  have h : printInstr (.submitEdgeMillis m l) =
      "SUBMIT_EDGE_MILLIS ".toList ++ decimal m.toNat ++ ", ".toList ++ decimal l.toNat := rfl
  rw [h, List.append_assoc, List.append_assoc, List.append_assoc]
  generalize decimal m.toNat ++ (", ".toList ++ decimal l.toNat) = operands
  rfl

end Sys2Proof.Machine
end

