-- ==== Sys2Proof/Laws/Encoding.lean ====
section
/-! SUPPORT. The fields of encoded words: what each field accessor and each mask reads from an encoding with
operands. -/

namespace Sys2Proof

theorem opField_encode_submitEdge (d : Duration) (level : Bool) :
    opField (encode (.submitEdge d level)) = 5#4 := by
  apply BitVec.eq_of_getLsbD_eq
  intro i hi
  cases level <;> interval_cases i <;> simp [encode, opField, levelBits, rowSubmitEdge]

theorem opField_encode_submitEdgeMillis (m : Millis) (level : Bool) :
    opField (encode (.submitEdgeMillis m level)) = 6#4 := by
  apply BitVec.eq_of_getLsbD_eq
  intro i hi
  cases level <;> interval_cases i <;> simp [encode, opField, levelBits, rowSubmitEdgeMillis]

theorem opField_encode_registerCallback (h : HandlerId) : opField (encode (.registerCallback h)) = 7#4 := by
  apply BitVec.eq_of_getLsbD_eq
  intro i hi
  interval_cases i <;> simp [encode, opField, rowRegisterCallback]

theorem reserved_encode_submitEdge (d : Duration) (level : Bool) :
    encode (.submitEdge d level) &&& reservedBits 5#4 = 0#32 := by
  apply BitVec.eq_of_getLsbD_eq
  intro i hi
  cases level <;> interval_cases i <;> simp [encode, reservedBits, levelBits, rowSubmitEdge]

theorem reserved_encode_submitEdgeMillis (m : Millis) (level : Bool) :
    encode (.submitEdgeMillis m level) &&& reservedBits 6#4 = 0#32 := by
  apply BitVec.eq_of_getLsbD_eq
  intro i hi
  cases level <;> interval_cases i <;> simp [encode, reservedBits, levelBits, rowSubmitEdgeMillis]

theorem reserved_encode_registerCallback (h : HandlerId) :
    encode (.registerCallback h) &&& reservedBits 7#4 = 0#32 := by
  apply BitVec.eq_of_getLsbD_eq
  intro i hi
  interval_cases i <;> simp [encode, reservedBits, rowRegisterCallback]

theorem mask_encode_submitEdge (d : Duration) (level : Bool) :
    encode (.submitEdge d level) &&& rowSubmitEdge.mask = rowSubmitEdge.pattern := by
  apply BitVec.eq_of_getLsbD_eq
  intro i hi
  cases level <;> interval_cases i <;> simp [encode, levelBits, rowSubmitEdge]

theorem mask_encode_submitEdgeMillis (m : Millis) (level : Bool) :
    encode (.submitEdgeMillis m level) &&& rowSubmitEdgeMillis.mask = rowSubmitEdgeMillis.pattern := by
  apply BitVec.eq_of_getLsbD_eq
  intro i hi
  cases level <;> interval_cases i <;> simp [encode, levelBits, rowSubmitEdgeMillis]

theorem mask_encode_registerCallback (h : HandlerId) :
    encode (.registerCallback h) &&& rowRegisterCallback.mask = rowRegisterCallback.pattern := by
  apply BitVec.eq_of_getLsbD_eq
  intro i hi
  interval_cases i <;> simp [encode, rowRegisterCallback]

@[simp] theorem levelField_encode_submitEdge (d : Duration) (level : Bool) :
    levelField (encode (.submitEdge d level)) = level := by
  cases level <;> simp [encode, levelField, levelBits, rowSubmitEdge]

@[simp] theorem levelField_encode_submitEdgeMillis (m : Millis) (level : Bool) :
    levelField (encode (.submitEdgeMillis m level)) = level := by
  cases level <;> simp [encode, levelField, levelBits, rowSubmitEdgeMillis]

@[simp] theorem durationField_encode_submitEdge (d : Duration) (level : Bool) :
    durationField (encode (.submitEdge d level)) = d := by
  apply BitVec.eq_of_getLsbD_eq
  intro i hi
  cases level <;> interval_cases i <;> simp [encode, durationField, levelBits, rowSubmitEdge]

@[simp] theorem millisField_encode_submitEdgeMillis (m : Millis) (level : Bool) :
    millisField (encode (.submitEdgeMillis m level)) = m := by
  apply BitVec.eq_of_getLsbD_eq
  intro i hi
  cases level <;> interval_cases i <;> simp [encode, millisField, levelBits, rowSubmitEdgeMillis]

@[simp] theorem handlerField_encode_registerCallback (h : HandlerId) :
    handlerField (encode (.registerCallback h)) = h := by
  apply BitVec.eq_of_getLsbD_eq
  intro i hi
  interval_cases i <;> simp [encode, handlerField, rowRegisterCallback]

end Sys2Proof
end

