-- ==== Sys2Proof/Laws/State.lean ====
section
/-! SUPPORT. The small lemmas of the state: one per field per update of Machine/Ops.lean, so that no later proof
unfolds a record update, and the two of the callback, whose calls leave nothing but the mark. -/

namespace Sys2Proof.Machine

/-! ## `refuse` -/

@[simp] theorem refuse_cnt (s : State) : (refuse s).cnt = s.cnt := rfl
@[simp] theorem refuse_ovfPending (s : State) : (refuse s).ovfPending = s.ovfPending := rfl
@[simp] theorem refuse_ovfCount (s : State) : (refuse s).ovfCount = s.ovfCount := rfl
@[simp] theorem refuse_edgeSel (s : State) : (refuse s).edgeSel = s.edgeSel := rfl
@[simp] theorem refuse_statusOut (s : State) : (refuse s).statusOut = s.statusOut := rfl
@[simp] theorem refuse_irIn (s : State) : (refuse s).irIn = s.irIn := rfl
@[simp] theorem refuse_st (s : State) : (refuse s).st = s.st := rfl
@[simp] theorem refuse_acc (s : State) : (refuse s).acc = s.acc := rfl
@[simp] theorem refuse_bitCount (s : State) : (refuse s).bitCount = s.bitCount := rfl
@[simp] theorem refuse_handler (s : State) : (refuse s).handler = s.handler := rfl
@[simp] theorem refuse_refused (s : State) : (refuse s).refused = true := rfl
@[simp] theorem refuse_out (s : State) : (refuse s).out = s.out := rfl
@[simp] theorem refuse_cfg (s : State) : (refuse s).cfg = s.cfg := rfl
@[simp] theorem refuse_stream (s : State) : (refuse s).stream = s.stream := rfl
@[simp] theorem refuse_consumer (s : State) : (refuse s).consumer = s.consumer := rfl

/-! ## `emit` -/

@[simp] theorem emit_cnt (word : Command) (rep : RepeatCount) (s : State) : (emit word rep s).cnt = s.cnt := rfl
@[simp] theorem emit_ovfPending (word : Command) (rep : RepeatCount) (s : State) : (emit word rep s).ovfPending = s.ovfPending := rfl
@[simp] theorem emit_ovfCount (word : Command) (rep : RepeatCount) (s : State) : (emit word rep s).ovfCount = s.ovfCount := rfl
@[simp] theorem emit_edgeSel (word : Command) (rep : RepeatCount) (s : State) : (emit word rep s).edgeSel = s.edgeSel := rfl
@[simp] theorem emit_statusOut (word : Command) (rep : RepeatCount) (s : State) : (emit word rep s).statusOut = s.statusOut := rfl
@[simp] theorem emit_irIn (word : Command) (rep : RepeatCount) (s : State) : (emit word rep s).irIn = s.irIn := rfl
@[simp] theorem emit_st (word : Command) (rep : RepeatCount) (s : State) : (emit word rep s).st = s.st := rfl
@[simp] theorem emit_acc (word : Command) (rep : RepeatCount) (s : State) : (emit word rep s).acc = s.acc := rfl
@[simp] theorem emit_bitCount (word : Command) (rep : RepeatCount) (s : State) : (emit word rep s).bitCount = s.bitCount := rfl
@[simp] theorem emit_handler (word : Command) (rep : RepeatCount) (s : State) : (emit word rep s).handler = s.handler := rfl
@[simp] theorem emit_refused (word : Command) (rep : RepeatCount) (s : State) : (emit word rep s).refused = s.refused := rfl
@[simp] theorem emit_out (word : Command) (rep : RepeatCount) (s : State) : (emit word rep s).out = s.out ++ [⟨s.handler, word, rep⟩] := rfl
@[simp] theorem emit_cfg (word : Command) (rep : RepeatCount) (s : State) : (emit word rep s).cfg = s.cfg := rfl
@[simp] theorem emit_stream (word : Command) (rep : RepeatCount) (s : State) : (emit word rep s).stream = s.stream := rfl
@[simp] theorem emit_consumer (word : Command) (rep : RepeatCount) (s : State) : (emit word rep s).consumer = s.consumer := rfl

/-! ## `fullReset` -/

@[simp] theorem fullReset_cnt (s : State) : (fullReset s).cnt = s.cnt := rfl
@[simp] theorem fullReset_ovfPending (s : State) : (fullReset s).ovfPending = s.ovfPending := rfl
@[simp] theorem fullReset_ovfCount (s : State) : (fullReset s).ovfCount = s.ovfCount := rfl
@[simp] theorem fullReset_edgeSel (s : State) : (fullReset s).edgeSel = s.edgeSel := rfl
@[simp] theorem fullReset_statusOut (s : State) : (fullReset s).statusOut = s.statusOut := rfl
@[simp] theorem fullReset_irIn (s : State) : (fullReset s).irIn = s.irIn := rfl
@[simp] theorem fullReset_st (s : State) : (fullReset s).st = .preamble := rfl
@[simp] theorem fullReset_acc (s : State) : (fullReset s).acc = 0#16 := rfl
@[simp] theorem fullReset_bitCount (s : State) : (fullReset s).bitCount = 0 := rfl
@[simp] theorem fullReset_handler (s : State) : (fullReset s).handler = s.handler := rfl
@[simp] theorem fullReset_refused (s : State) : (fullReset s).refused = s.refused := rfl
@[simp] theorem fullReset_out (s : State) : (fullReset s).out = s.out := rfl
@[simp] theorem fullReset_cfg (s : State) : (fullReset s).cfg = s.cfg := rfl
@[simp] theorem fullReset_stream (s : State) : (fullReset s).stream = s.stream := rfl
@[simp] theorem fullReset_consumer (s : State) : (fullReset s).consumer = s.consumer := rfl

/-! ## `resync` -/

@[simp] theorem resync_cnt (level : Bool) (s : State) : (resync level s).cnt = s.cnt := rfl
@[simp] theorem resync_ovfPending (level : Bool) (s : State) : (resync level s).ovfPending = s.ovfPending := rfl
@[simp] theorem resync_ovfCount (level : Bool) (s : State) : (resync level s).ovfCount = s.ovfCount := rfl
@[simp] theorem resync_edgeSel (level : Bool) (s : State) : (resync level s).edgeSel = s.edgeSel := rfl
@[simp] theorem resync_statusOut (level : Bool) (s : State) : (resync level s).statusOut = s.statusOut := rfl
@[simp] theorem resync_irIn (level : Bool) (s : State) : (resync level s).irIn = s.irIn := rfl
@[simp] theorem resync_st (level : Bool) (s : State) : (resync level s).st = resyncTarget s.cfg level := rfl
@[simp] theorem resync_acc (level : Bool) (s : State) : (resync level s).acc = 0#16 := rfl
@[simp] theorem resync_bitCount (level : Bool) (s : State) : (resync level s).bitCount = 0 := rfl
@[simp] theorem resync_handler (level : Bool) (s : State) : (resync level s).handler = s.handler := rfl
@[simp] theorem resync_refused (level : Bool) (s : State) : (resync level s).refused = s.refused := rfl
@[simp] theorem resync_out (level : Bool) (s : State) : (resync level s).out = s.out := rfl
@[simp] theorem resync_cfg (level : Bool) (s : State) : (resync level s).cfg = s.cfg := rfl
@[simp] theorem resync_stream (level : Bool) (s : State) : (resync level s).stream = s.stream := rfl
@[simp] theorem resync_consumer (level : Bool) (s : State) : (resync level s).consumer = s.consumer := rfl

/-! ## `accumulate` -/

@[simp] theorem accumulate_cnt (d : Duration) (s : State) : (accumulate d s).cnt = s.cnt := rfl
@[simp] theorem accumulate_ovfPending (d : Duration) (s : State) : (accumulate d s).ovfPending = s.ovfPending := rfl
@[simp] theorem accumulate_ovfCount (d : Duration) (s : State) : (accumulate d s).ovfCount = s.ovfCount := rfl
@[simp] theorem accumulate_edgeSel (d : Duration) (s : State) : (accumulate d s).edgeSel = s.edgeSel := rfl
@[simp] theorem accumulate_statusOut (d : Duration) (s : State) : (accumulate d s).statusOut = s.statusOut := rfl
@[simp] theorem accumulate_irIn (d : Duration) (s : State) : (accumulate d s).irIn = s.irIn := rfl
@[simp] theorem accumulate_st (d : Duration) (s : State) : (accumulate d s).st = s.st := rfl
@[simp] theorem accumulate_acc (d : Duration) (s : State) : (accumulate d s).acc = BitVec.ofNat 16 (s.acc.toNat * 2 + bitOf s.cfg d) := rfl
@[simp] theorem accumulate_bitCount (d : Duration) (s : State) : (accumulate d s).bitCount = s.bitCount + 1 := rfl
@[simp] theorem accumulate_handler (d : Duration) (s : State) : (accumulate d s).handler = s.handler := rfl
@[simp] theorem accumulate_refused (d : Duration) (s : State) : (accumulate d s).refused = s.refused := rfl
@[simp] theorem accumulate_out (d : Duration) (s : State) : (accumulate d s).out = s.out := rfl
@[simp] theorem accumulate_cfg (d : Duration) (s : State) : (accumulate d s).cfg = s.cfg := rfl
@[simp] theorem accumulate_stream (d : Duration) (s : State) : (accumulate d s).stream = s.stream := rfl
@[simp] theorem accumulate_consumer (d : Duration) (s : State) : (accumulate d s).consumer = s.consumer := rfl

/-! ## `rearm` -/

@[simp] theorem rearm_cnt (s : State) : (rearm s).cnt = 0 := rfl
@[simp] theorem rearm_ovfPending (s : State) : (rearm s).ovfPending = pendingAfterCapture s := rfl
@[simp] theorem rearm_ovfCount (s : State) : (rearm s).ovfCount = 0 := rfl
@[simp] theorem rearm_edgeSel (s : State) : (rearm s).edgeSel = !s.edgeSel := rfl
@[simp] theorem rearm_statusOut (s : State) : (rearm s).statusOut = !s.edgeSel := rfl
@[simp] theorem rearm_irIn (s : State) : (rearm s).irIn = s.irIn := rfl
@[simp] theorem rearm_st (s : State) : (rearm s).st = s.st := rfl
@[simp] theorem rearm_acc (s : State) : (rearm s).acc = s.acc := rfl
@[simp] theorem rearm_bitCount (s : State) : (rearm s).bitCount = s.bitCount := rfl
@[simp] theorem rearm_handler (s : State) : (rearm s).handler = s.handler := rfl
@[simp] theorem rearm_refused (s : State) : (rearm s).refused = s.refused := rfl
@[simp] theorem rearm_out (s : State) : (rearm s).out = s.out := rfl
@[simp] theorem rearm_cfg (s : State) : (rearm s).cfg = s.cfg := rfl
@[simp] theorem rearm_stream (s : State) : (rearm s).stream = s.stream := rfl
@[simp] theorem rearm_consumer (s : State) : (rearm s).consumer = s.consumer := rfl

/-! ## The callback -/

/-- Calls made from inside a callback leave the mark of a refusal, and nothing else (R90). -/
theorem foldl_nestedCall (calls : List ConsumerCall) (s : State) :
    calls.foldl nestedCall s = { s with refused := s.refused || !calls.isEmpty } := by
  induction calls generalizing s with
  | nil => simp
  | cons call rest ih => simp [ih, nestedCall, refuse]

/-- The callback says once what it can change: the mark and the consumer's own script. -/
theorem runCallback_eq (s : State) :
    runCallback s =
      if s.handler.isSome then
        { s with refused := s.refused || !(s.consumer.headD []).isEmpty, consumer := s.consumer.tail }
      else s := by
  unfold runCallback
  cases s.handler with
  | none => rfl
  | some h => simp [foldl_nestedCall]

@[simp] theorem runCallback_cnt (s : State) : (runCallback s).cnt = s.cnt := by
  rw [runCallback_eq]; split <;> rfl
@[simp] theorem runCallback_ovfPending (s : State) : (runCallback s).ovfPending = s.ovfPending := by
  rw [runCallback_eq]; split <;> rfl
@[simp] theorem runCallback_ovfCount (s : State) : (runCallback s).ovfCount = s.ovfCount := by
  rw [runCallback_eq]; split <;> rfl
@[simp] theorem runCallback_edgeSel (s : State) : (runCallback s).edgeSel = s.edgeSel := by
  rw [runCallback_eq]; split <;> rfl
@[simp] theorem runCallback_statusOut (s : State) : (runCallback s).statusOut = s.statusOut := by
  rw [runCallback_eq]; split <;> rfl
@[simp] theorem runCallback_irIn (s : State) : (runCallback s).irIn = s.irIn := by
  rw [runCallback_eq]; split <;> rfl
@[simp] theorem runCallback_st (s : State) : (runCallback s).st = s.st := by
  rw [runCallback_eq]; split <;> rfl
@[simp] theorem runCallback_acc (s : State) : (runCallback s).acc = s.acc := by
  rw [runCallback_eq]; split <;> rfl
@[simp] theorem runCallback_bitCount (s : State) : (runCallback s).bitCount = s.bitCount := by
  rw [runCallback_eq]; split <;> rfl
@[simp] theorem runCallback_handler (s : State) : (runCallback s).handler = s.handler := by
  rw [runCallback_eq]; split <;> rfl
@[simp] theorem runCallback_out (s : State) : (runCallback s).out = s.out := by
  rw [runCallback_eq]; split <;> rfl
@[simp] theorem runCallback_cfg (s : State) : (runCallback s).cfg = s.cfg := by
  rw [runCallback_eq]; split <;> rfl
@[simp] theorem runCallback_stream (s : State) : (runCallback s).stream = s.stream := by
  rw [runCallback_eq]; split <;> rfl

end Sys2Proof.Machine
end

