-- ==== Sys2Proof/Laws/Ops.lean ====
section
/-! SUPPORT. What each shared operation can do, said once: `complete`, the arcs, the decoder, the capture, the line,
`exec` and `step`. Later proofs cite these and do not unfold the operations. -/

namespace Sys2Proof.Machine

/-- A completed word: one event, and the decoder at its start. -/
theorem complete_out (s : State) : (complete s).out = s.out ++ [⟨s.handler, s.acc, s.cfg.repeatCount⟩] := by
  simp [complete]

/-- The mark after a completed word: set exactly by a consumer that holds the slot and calls back. -/
theorem complete_refused (s : State) :
    (complete s).refused = (s.refused || (s.handler.isSome && !(s.consumer.headD []).isEmpty)) := by
  rw [complete, runCallback_eq]
  cases h : s.handler <;> simp [h]

/-- The consumer's script after a completed word: one callback shorter when it ran. -/
theorem complete_consumer (s : State) :
    (complete s).consumer = if s.handler.isSome then s.consumer.tail else s.consumer := by
  rw [complete, runCallback_eq]
  cases h : s.handler <;> simp [h]

/-- `complete` as one record: the word is delivered, the accumulator emptied, the callback's traces left. -/
theorem complete_eq (s : State) :
    complete s =
      { s with
        st := .preamble
        acc := 0#16
        bitCount := 0
        out := s.out ++ [⟨s.handler, s.acc, s.cfg.repeatCount⟩]
        refused := s.refused || (s.handler.isSome && !(s.consumer.headD []).isEmpty)
        consumer := if s.handler.isSome then s.consumer.tail else s.consumer } := by
  rw [complete, runCallback_eq]
  cases h : s.handler <;> simp [h, fullReset, emit]

/-- An arc before BitAccumulate accepts or resyncs. -/
theorem validate_cases (accepted : Bool) (successor : DecoderState) (level : Bool) (s : State) :
    (accepted = true ∧ validate accepted successor level s = { s with st := successor }) ∨
    (accepted = false ∧ validate accepted successor level s = resync level s) := by
  cases accepted <;> simp [validate]

/-- The BitAccumulate arc: overrun, one more bit, or a completed word. -/
theorem arcBit_cases (d : Duration) (s : State) :
    (s.cfg.wordBits ≤ s.bitCount ∧ arcBit d s = fullReset s) ∨
    (s.bitCount + 1 < s.cfg.wordBits ∧ arcBit d s = accumulate d s) ∨
    (s.bitCount + 1 = s.cfg.wordBits ∧ arcBit d s = complete (accumulate d s)) := by
  unfold arcBit
  by_cases guard : s.cfg.wordBits ≤ s.bitCount
  · exact .inl ⟨guard, if_pos guard⟩
  · rw [if_neg guard, accumulate_bitCount]
    by_cases last : s.bitCount + 1 = s.cfg.wordBits
    · exact .inr (.inr ⟨last, if_pos last⟩)
    · exact .inr (.inl ⟨by omega, if_neg last⟩)

/-- One event, all it can do: a window accepts, a failure resyncs, or BitAccumulate takes its arc. -/
theorem decodeEvent_cases (d : Duration) (level : Bool) (s : State) :
    (s.st ≠ .bitAccumulate ∧
      ((s.st = .preamble ∧ decodeEvent d level s = { s with st := .syncHigh }) ∨
       (s.st = .syncHigh ∧ decodeEvent d level s = { s with st := .syncLow }) ∨
       (s.st = .syncLow ∧ decodeEvent d level s = { s with st := .headerHigh }) ∨
       (s.st = .headerHigh ∧ decodeEvent d level s = { s with st := .bitAccumulate }) ∨
       decodeEvent d level s = resync level s)) ∨
    (s.st = .bitAccumulate ∧ decodeEvent d level s = arcBit d s) := by
  unfold decodeEvent
  cases hst : s.st
  case preamble =>
    obtain ⟨_, h⟩ | ⟨_, h⟩ := validate_cases (above d s.cfg.preambleMin) .syncHigh level s <;>
      simp [arcPreamble, h]
  case syncHigh =>
    obtain ⟨_, h⟩ | ⟨_, h⟩ := validate_cases (inOpen d s.cfg.syncHigh) .syncLow level s <;>
      simp [arcSyncHigh, h]
  case syncLow =>
    obtain ⟨_, h⟩ | ⟨_, h⟩ := validate_cases (inOpen d s.cfg.syncLow) .headerHigh level s <;>
      simp [arcSyncLow, h]
  case headerHigh =>
    obtain ⟨_, h⟩ | ⟨_, h⟩ := validate_cases (inOpen d s.cfg.headerHigh) .bitAccumulate level s <;>
      simp [arcHeaderHigh, h]
  case bitAccumulate => simp

/-- What a level on the line can do: nothing, record the transition, or capture it. -/
theorem lineLevel_cases (level : Bool) (s : State) :
    (level = s.irIn ∧ lineLevel level s = s) ∨
    (level ≠ s.irIn ∧ level ≠ s.edgeSel ∧ lineLevel level s = { s with irIn := level }) ∨
    (level ≠ s.irIn ∧ level = s.edgeSel ∧ lineLevel level s = capture { s with irIn := level }) := by
  cases level <;> cases h1 : s.irIn <;> cases h2 : s.edgeSel <;>
    simp [lineLevel, isTransition, isSelected, h1, h2]

/-- What a tick can do: wrap the counter or advance it. -/
theorem countTick_cases (s : State) :
    (s.cnt = 2 ^ s.cfg.timerWidth - 1 ∧ countTick s = { s with cnt := 0, ovfPending := true }) ∨
    (s.cnt ≠ 2 ^ s.cfg.timerWidth - 1 ∧ countTick s = { s with cnt := s.cnt + 1 }) := by
  by_cases h : s.cnt = 2 ^ s.cfg.timerWidth - 1 <;> simp [countTick, atLastCount, h]

/-- Every word of the stream answers a next state: its transaction's, or the mark of a refusal. -/
theorem transact_cases (w : Word) (s : State) :
    (∃ i, decode w = .ok i ∧ transact w s = exec i s) ∨
    (∃ e, decode w = .error e ∧ transact w s = .next (refuse s)) := by
  unfold transact
  cases h : decode w with
  | ok i => exact .inl ⟨i, rfl, rfl⟩
  | error e => exact .inr ⟨e, rfl, rfl⟩

/-- All a step can do. -/
theorem step_cases (s : State) :
    (s.stream = [] ∧ step s = .refused .endOfRun) ∨
    (∃ w rest, s.stream = w :: rest ∧ step s = transact w { s with stream := rest }) := by
  unfold step fetchWord
  cases h : s.stream with
  | nil => exact .inl ⟨rfl, rfl⟩
  | cons w rest => exact .inr ⟨w, rest, rfl, rfl⟩

end Sys2Proof.Machine
end

