-- ==== Sys2Proof/Laws/PerInstr.lean ====
section
/-! SUPPORT. Statements made once per instruction, as syntax. `SelectsItsRow`: an instruction's encoding selects
the row of 30_encoding.md R41 that stands for it, and is a well-formed word (R43). -/

namespace Sys2Proof.Laws.SelectsItsRow

/-- The encoding of `i` selects `i`'s row and is well-formed. -/
def Statement (i : Instr) : Prop := (rowOf i).selects (encode i) = true ∧ wellFormedWord (encode i) = true

theorem tick : Statement .tick := ⟨by decide, by decide⟩

theorem ovfService : Statement .ovfService := ⟨by decide, by decide⟩

theorem input (level : Bool) : Statement (.input level) := by
  cases level <;> exact ⟨by decide, by decide⟩

theorem reset : Statement .reset := ⟨by decide, by decide⟩

theorem submitEdge (duration : Duration) (level : Bool) : Statement (.submitEdge duration level) := by
  constructor
  · simpa [Row.selects, rowOf] using mask_encode_submitEdge duration level
  · rw [wellFormedWord, opField_encode_submitEdge, reserved_encode_submitEdge]; decide

theorem submitEdgeMillis (millis : Millis) (level : Bool) : Statement (.submitEdgeMillis millis level) := by
  constructor
  · simpa [Row.selects, rowOf] using mask_encode_submitEdgeMillis millis level
  · rw [wellFormedWord, opField_encode_submitEdgeMillis, reserved_encode_submitEdgeMillis]; decide

theorem registerCallback (handler : HandlerId) : Statement (.registerCallback handler) := by
  constructor
  · simpa [Row.selects, rowOf] using mask_encode_registerCallback handler
  · rw [wellFormedWord, opField_encode_registerCallback, reserved_encode_registerCallback]; decide

theorem powerOnReset : Statement .powerOnReset := ⟨by decide, by decide⟩

end Sys2Proof.Laws.SelectsItsRow
end

