-- ==== Sys2Proof/Laws/Runs.lean ====
section
/-! SUPPORT. Runs, one transaction at a time, and that `runSteps` is the host's `Core.run`. -/

namespace Sys2Proof.Machine

theorem runSteps_zero (s : State) : runSteps 0 s = .next s := rfl

theorem runSteps_succ (k : Nat) (s t : State) (h : step s = .next t) : runSteps (k + 1) s = runSteps k t := by
  rw [runSteps, h]

theorem runInstrs_cons (i : Instr) (rest : List Instr) (s t : State) (h : exec i s = .next t) :
    runInstrs (i :: rest) s = runInstrs rest t := by
  rw [runInstrs, h]

/-- A run of two lists is the run of the second from where the first ends. -/
theorem runInstrs_append (first second : List Instr) (s t : State) (h : runInstrs first s = .next t) :
    runInstrs (first ++ second) s = runInstrs second t := by
  induction first generalizing s with
  | nil => cases h; rfl
  | cons i rest ih =>
    rw [List.cons_append]
    simp only [runInstrs] at h ⊢
    split at h <;> simp_all

/-- One step of the host's run that answers a next state. -/
theorem coreRun_succ_next (M : Host.Core) (k : Nat) (s t : M.State) (h : M.step s = .next t) :
    M.run (k + 1) s = M.run k t := by
  simp [Host.Core.run, h]

/-- One step of the host's run that is refused. -/
theorem coreRun_succ_refused (M : Host.Core) (k : Nat) (s : M.State) (r : M.Refusal) (h : M.step s = .refused r) :
    M.run (k + 1) s = .refused r := by
  simp [Host.Core.run, h]

/-- `runSteps` is the run of the host's interface. -/
theorem runSteps_eq_coreRun (k : Nat) (s : State) : runSteps k s = Host.Core.run core k s := by
  induction k generalizing s with
  | zero => rfl
  | succ k ih =>
    unfold runSteps
    cases h : step s with
    | next t => exact (ih t).trans (coreRun_succ_next core k s t h).symm
    | fault r => cases r
    | refused r => exact (coreRun_succ_refused core k s r h).symm

end Sys2Proof.Machine
end

