-- ==== Sys2Proof/Tests/Slice0.lean ====
section
/-! SUPPORT. The model's own tests. Every expected value is a vector of 95_test_vectors.md (its name is in the test's
docstring) or is worked out by hand from the rule named there. Below them stand the witnesses: for each statement
with hypotheses, a concrete state and operands that meet them all, clause by clause. -/

namespace Sys2Proof.Tests

open Sys2Proof.Machine

/-! ## Decoding and well-formedness -/

/-- E2, E4, E9, E21. -/
theorem test_decode_format_Z :
    decode 0x10000000#32 = .ok .tick ∧ decode 0x20000000#32 = .ok .ovfService ∧
    decode 0x40000000#32 = .ok .reset ∧ decode 0x80000000#32 = .ok .powerOnReset := ⟨rfl, rfl, rfl, rfl⟩

/-- E5, E6. -/
theorem test_decode_input :
    decode 0x30010000#32 = .ok (.input true) ∧ decode 0x30000000#32 = .ok (.input false) := ⟨rfl, rfl⟩

/-- E11, E12, and A28's word for 1000 µs. -/
theorem test_decode_submitEdge :
    decode 0x50000000#32 = .ok (.submitEdge 0#16 false) ∧ decode 0x5001FFFF#32 = .ok (.submitEdge 65535#16 true) ∧
    decode 0x500103E8#32 = .ok (.submitEdge 1000#16 true) := ⟨rfl, rfl, rfl⟩

/-- E14, E15. -/
theorem test_decode_submitEdgeMillis :
    decode 0x60000046#32 = .ok (.submitEdgeMillis 70#8 false) ∧
    decode 0x600100FF#32 = .ok (.submitEdgeMillis 255#8 true) := ⟨rfl, rfl⟩

/-- E17, E18. -/
theorem test_decode_registerCallback :
    decode 0x700000FF#32 = .ok (.registerCallback 255#8) ∧ decode 0x70000000#32 = .ok (.registerCallback 0#8) :=
  ⟨rfl, rfl⟩

/-- The encoder against the words of P1 and P4. -/
theorem test_encode_words :
    encode (.submitEdge 12000#16 true) = 0x50012EE0#32 ∧ encode (.submitEdgeMillis 70#8 true) = 0x60010046#32 ∧
    encode (.registerCallback 2#8) = 0x70000002#32 ∧ encode (.input true) = 0x30010000#32 := by decide

/-- The host's bit numbering of a word. -/
theorem test_decodeTableWord :
    decodeTableWord 32 0x500103E8 = some (.submitEdge 1000#16 true) ∧ decodeTableWord 32 0 = none := ⟨rfl, rfl⟩

/-- E1, E23, E24, E25: a reserved `OP` is refused. -/
theorem test_wellFormed_refuses_reserved_op :
    wellFormedWord 0x00000000#32 = false ∧ wellFormedWord 0x90000000#32 = false ∧
    wellFormedWord 0xF0000000#32 = false ∧ wellFormedWord 0x08000000#32 = false := by decide

/-- E3, E10, E22, and bit 16 of a Z format: a reserved bit of a Z format is refused. -/
theorem test_wellFormed_refuses_bit_in_Z :
    wellFormedWord 0x10000001#32 = false ∧ wellFormedWord 0x40000001#32 = false ∧
    wellFormedWord 0x80000001#32 = false ∧ wellFormedWord 0x20010000#32 = false := by decide

/-- E7, E8: a reserved bit of `INPUT` is refused. -/
theorem test_wellFormed_refuses_bit_in_L :
    wellFormedWord 0x30000001#32 = false ∧ wellFormedWord 0x30020000#32 = false := by decide

/-- E13, E16, E19, E20: a reserved bit of the formats LD, LM and H is refused. -/
theorem test_wellFormed_refuses_bit_in_LD_LM_H :
    wellFormedWord 0x50020000#32 = false ∧ wellFormedWord 0x60000100#32 = false ∧
    wellFormedWord 0x70010000#32 = false ∧ wellFormedWord 0x70000100#32 = false := by decide

/-- Each check of an assembler line's ranges (R45) refuses a line one past its bound. -/
theorem test_asmLine_wf_refuses :
    AsmLine.wf (.input 2) = false ∧ AsmLine.wf (.submitEdge 65536 0) = false ∧ AsmLine.wf (.submitEdge 0 2) = false ∧
    AsmLine.wf (.submitEdgeMillis 256 0) = false ∧ AsmLine.wf (.submitEdgeMillis 0 2) = false ∧
    AsmLine.wf (.registerCallback 256) = false ∧ AsmLine.wf (.pulse 5 2) = false ∧
    AsmLine.wf (.submitFrame 65536) = false := by decide

/-- A well-formed configuration to spoil. -/
def wfConfig : Config := Config.atDefaults 8 1 1 false true

/-- Each constraint of R7 refuses a configuration one past its bound. -/
theorem test_config_wf_refuses :
    ¬ Config.wf { wfConfig with timerWidth := 0 } ∧ ¬ Config.wf { wfConfig with tickNum := 0 } ∧
    ¬ Config.wf { wfConfig with tickDen := 0 } ∧ ¬ Config.wf { wfConfig with ovfWidth := 1 } ∧
    ¬ Config.wf { wfConfig with syncHigh := ⟨250#16, 250#16⟩ } ∧
    ¬ Config.wf { wfConfig with syncLow := ⟨250#16, 250#16⟩ } ∧
    ¬ Config.wf { wfConfig with headerHigh := ⟨250#16, 250#16⟩ } ∧
    ¬ Config.wf { wfConfig with bit1 := ⟨600#16, 500#16⟩ } ∧
    ¬ Config.wf { wfConfig with millisCap := 66 } ∧
    ¬ Config.wf { wfConfig with wordBits := 0 } ∧ ¬ Config.wf { wfConfig with wordBits := 17 } := by
  dsimp only [Config.wf, wfConfig, Config.atDefaults]
  exact ⟨by decide, by decide, by decide, by decide, by decide, by decide, by decide, by decide, by decide, by decide,
    by decide⟩

/-! ## Transactions -/

/-- The power-on state at W = 16, one tick per microsecond, falling edge first, line high (P1's setting). -/
def base : State := State.powerOn (Config.atDefaults 16 1 1 false true)

/-- The same with W = 8. -/
def base8 : State := State.powerOn (Config.atDefaults 8 1 1 false true)

/-- T3, T4: the wrap raises the flag, and a second wrap is lost. -/
theorem test_tick_wraps :
    nextOf (exec .tick { base8 with cnt := 255 }) = some { base8 with cnt := 0, ovfPending := true } ∧
    nextOf (exec .tick { base8 with cnt := 255, ovfPending := true }) =
      some { base8 with cnt := 0, ovfPending := true } := by decide

/-- T2, T5: the last value before the wrap, and a plain count. -/
theorem test_tick_counts :
    nextOf (exec .tick { base8 with cnt := 254 }) = some { base8 with cnt := 255 } ∧
    nextOf (exec .tick { base8 with cnt := 3, st := .syncLow }) = some { base8 with cnt := 4, st := .syncLow } := by
  decide

/-- O2, O3: counted, and saturated. -/
theorem test_ovfService_counts :
    nextOf (exec .ovfService { base with ovfPending := true, ovfCount := 1 }) = some { base with ovfCount := 2 } ∧
    nextOf (exec .ovfService { base with ovfPending := true, ovfCount := 255 }) =
      some { base with ovfCount := 255 } := by decide

/-- O4: nothing pending. -/
theorem test_ovfService_idle :
    nextOf (exec .ovfService { base with ovfCount := 3 }) = some { base with ovfCount := 3 } := by decide

/-- I1: a capture of 1000 µs fails in Preamble and, rising, resyncs to SyncHigh. -/
theorem test_input_captures :
    nextOf (exec (.input true) { base with irIn := false, edgeSel := true, statusOut := true, cnt := 1000 }) =
      some { base with irIn := true, edgeSel := false, statusOut := false, cnt := 0, st := .syncHigh } := by decide

/-- I3, I6: an unselected transition is only recorded, and a capture keeps a pending overflow. -/
theorem test_input_unselected_and_pending :
    nextOf (exec (.input true) { base with irIn := false, cnt := 77 }) = some { base with irIn := true, cnt := 77 } ∧
    (nextOf (exec (.input true)
        { base with irIn := false, edgeSel := true, cnt := 30, ovfPending := true, st := .syncHigh })).map
      (fun t => (t.ovfPending, t.st)) = some (true, .syncHigh) := by decide

/-- V5, V11, V12, V16: saturation, rounding toward zero, and the added period. -/
theorem test_duration_vectors :
    duration { Config.atDefaults 16 1 1 false true with oneOvfMode := .addPeriod } 500 1 = 65535#16 ∧
    duration (Config.atDefaults 16 1 2 false true) 3 0 = 1#16 ∧
    duration (Config.atDefaults 16 3 2 false true) 7 0 = 10#16 ∧
    duration { Config.atDefaults 8 4 1 false true with oneOvfMode := .addPeriod } 6 1 = 1048#16 := by decide

/-- A5, A8, A21: the exclusive bounds, and the two resync targets' lower one. -/
theorem test_submitEdge_windows :
    nextOf (exec (.submitEdge 10000#16 false) base) = some { base with st := .syncLow } ∧
    nextOf (exec (.submitEdge 10001#16 true) base) = some { base with st := .syncHigh } ∧
    nextOf (exec (.submitEdge 250#16 false) { base with st := .syncHigh }) = some { base with st := .syncLow } := by
  decide

/-- B13: the sixteenth bit delivers 0xA5C3 to handler 1 and empties the decoder. -/
theorem test_submitEdge_completes :
    nextOf (exec (.submitEdge 550#16 false)
        { base with st := .bitAccumulate, acc := 0x52E1#16, bitCount := 15, handler := some 1#8 }) =
      some { base with handler := some 1#8, out := [⟨some 1#8, 0xA5C3#16, 1#8⟩] } := by decide

/-- S7: 70 ms is clamped to 65000 µs, which Preamble accepts. -/
theorem test_submitEdgeMillis_clamps :
    nextOf (exec (.submitEdgeMillis 70#8 false) base) = some { base with st := .syncHigh } := by decide

/-- S9, S10: the one millisecond value inside a window, and its neighbour. -/
theorem test_submitEdgeMillis_window :
    nextOf (exec (.submitEdgeMillis 1#8 false) { base with st := .syncLow }) = some { base with st := .headerHigh } ∧
    nextOf (exec (.submitEdgeMillis 2#8 false) { base with st := .syncLow }) = some { base with st := .syncLow } := by
  decide

/-- H1, H4: the decoder rows only. -/
theorem test_reset_keeps_the_timer :
    nextOf (exec .reset { base with st := .bitAccumulate, acc := 0x002A#16, bitCount := 6 }) = some base ∧
    nextOf (exec .reset { base with cnt := 123, ovfPending := true, handler := some 5#8, st := .headerHigh }) =
      some { base with cnt := 123, ovfPending := true, handler := some 5#8 } := by decide

/-- H5, H6: the last registration wins, and id 0 is a handler. -/
theorem test_registerCallback :
    nextOf (exec (.registerCallback 7#8) { base with handler := some 3#8 }) = some { base with handler := some 7#8 } ∧
    nextOf (exec (.registerCallback 0#8) base) = some { base with handler := some 0#8 } := by decide

/-- H8: the log and the mark are kept. -/
theorem test_powerOnReset_keeps_the_log :
    nextOf (exec .powerOnReset
        { base with cnt := 9, edgeSel := true, statusOut := true, irIn := false, st := .syncLow, handler := some 1#8,
                    refused := true, out := [⟨none, 7#16, 1#8⟩] }) =
      some { base with refused := true, out := [⟨none, 7#16, 1#8⟩] } := by decide

/-- B15: the overrun guard. -/
theorem test_overrun_guard :
    nextOf (exec (.submitEdge 550#16 true) { base with st := .bitAccumulate, acc := 0xFFFF#16, bitCount := 16 }) =
      some base := by decide

/-- H9: a call made from inside the callback leaves the mark and nothing else of its own. -/
theorem test_reentrant_call_is_refused :
    nextOf (exec (.submitEdge 550#16 false)
        { base with st := .bitAccumulate, acc := 0x7FFF#16, bitCount := 15, handler := some 2#8,
                    consumer := [[.reset]] }) =
      some { base with handler := some 2#8, out := [⟨some 2#8, 0xFFFF#16, 1#8⟩], refused := true } := by decide

/-- The example under E25: 0x90000000 from power-on gives the power-on state with the mark. -/
theorem test_step_refuses_an_ill_formed_word :
    nextOf (step { base with stream := [0x90000000#32] }) = some { base with refused := true } := by decide

/-- The word that is offered is the one that runs, and at the end of the stream no step is made (R122). -/
theorem test_step_runs_the_offered_word :
    nextOf (step (base.withFetchWord 32 0x10000000)) = some { base with cnt := 1 } ∧
    step base = .refused .endOfRun := ⟨by decide, rfl⟩

/-- The examples of R49, beside the table of section 2.1. -/
theorem test_disassembly :
    disassemble 0x500103E8#32 = "SUBMIT_EDGE 1000, 1".toList ∧
    disassemble 0x90000000#32 = ".word 0x90000000 ; refused".toList := by decide

/-- R45, R47: a line with a comment and a hexadecimal number, a pseudo-instruction, and an operand out of range. -/
theorem test_assembler_lines :
    assembleLine "SUBMIT_EDGE 0x3E8, 1 ; sync".toList = some [0x500103E8#32] ∧
    assembleLine "PULSE 2, 0".toList = some [0x10000000#32, 0x10000000#32, 0x30000000#32] ∧
    assembleLine "INPUT 2".toList = none := by decide

/-! ## Witnesses -/

/-- `DecodedWordIsTheEncoding`. -/
theorem witness_decoded_word : decode 0x5001FFFF#32 = .ok (.submitEdge 65535#16 true) := rfl

/-- `IllFormedWordOnlySetsTheMark`: the three reasons, at the bounds of the reserved codes and at one bit. -/
theorem witness_ill_formed_word :
    ({ base with stream := [0x00000000#32] }.stream = [0x00000000#32] ∧ opField 0x00000000#32 = 0#4) ∧
    ({ base with stream := [0x9FFFFFFF#32] }.stream = [0x9FFFFFFF#32] ∧ 9#4 ≤ opField 0x9FFFFFFF#32) ∧
    ({ base with stream := [0x50020000#32] }.stream = [0x50020000#32] ∧
      0x50020000#32 &&& reservedBits (opField 0x50020000#32) ≠ 0#32) := by decide

/-- `StepRunsTheDecodedInstruction`. -/
theorem witness_step_runs :
    { base with stream := [0x10000000#32] }.stream = [0x10000000#32] ∧ decode 0x10000000#32 = .ok .tick :=
  ⟨rfl, rfl⟩

/-- `RunEndsAfterItsLastWord`, its first clause. -/
theorem witness_run_ended : base.stream = [] := rfl

/-- `TickCountsAndFlagsTheWrap`: the last count and the one before it. -/
theorem witness_tick :
    { base8 with cnt := 255 }.cnt = 2 ^ base8.cfg.timerWidth - 1 ∧
    { base8 with cnt := 254 }.cnt ≠ 2 ^ base8.cfg.timerWidth - 1 := by decide

/-- `OvfServiceCountsThePendingOverflow`: both clauses, at the saturated count. -/
theorem witness_ovfService :
    { base with ovfPending := true, ovfCount := 255 }.ovfPending = true ∧ base.ovfPending = false := by decide

/-- `TicksAdvanceTheCounterModulo`, at the last count. -/
theorem witness_ticks : { base8 with cnt := 255 }.cnt < 2 ^ base8.cfg.timerWidth := by decide

/-- `DurationFollowsTheOverflowCount`: its clauses at the counts 2, 1 and 0, in both modes. -/
theorem witness_duration :
    2 ≤ 2 ∧ (1 = 1 ∧ { base.cfg with oneOvfMode := .addPeriod }.oneOvfMode = .addPeriod) ∧
    (0 ≤ 1 ∧ (0 = 0 ∨ { base.cfg with oneOvfMode := .addPeriod }.oneOvfMode = .ticksOnly)) ∧
    (1 ≤ 1 ∧ (1 = 0 ∨ base.cfg.oneOvfMode = .ticksOnly)) := by decide

/-- `InputCapturesSelectedTransitions`: a repeated level, an unselected transition, a selected one. -/
theorem witness_input :
    true = base.irIn ∧
    (true ≠ { base with irIn := false }.irIn ∧ true ≠ { base with irIn := false }.edgeSel) ∧
    (false ≠ base.irIn ∧ false = base.edgeSel) := by decide

/-- `CaptureRestartsTheInterval`: a selected transition with overflows counted and the default flag rule. -/
theorem witness_capture :
    false ≠ { base with ovfCount := 2 }.irIn ∧ false = { base with ovfCount := 2 }.edgeSel ∧
    { base with ovfCount := 2 }.cfg.captureClearsOvfPending = false := by decide

/-- `OnlyCapturesMoveThePolarity`: a capture, and for the second clause a tick and an unselected transition. -/
theorem witness_polarity :
    (∃ t, false ≠ base.irIn ∧ false = base.edgeSel ∧ exec (.input false) base = .next t) ∧
    (∃ t, exec .tick base = .next t ∧ Instr.tick ≠ .powerOnReset ∧
      ∀ level, Instr.tick = .input level → level = base.irIn ∨ level ≠ base.edgeSel) ∧
    (∃ t, exec (.input true) { base with irIn := false } = .next t ∧ Instr.input true ≠ .powerOnReset ∧
      ∀ level, Instr.input true = .input level →
        level = { base with irIn := false }.irIn ∨ level ≠ { base with irIn := false }.edgeSel) :=
  ⟨⟨_, by decide, by decide, rfl⟩, ⟨_, rfl, by decide, by decide⟩, ⟨_, rfl, by decide, by decide⟩⟩

/-- `CapturePhaseTracksTheLine`: a state in phase under a capture, and a capture from a state out of phase. -/
theorem witness_phase :
    (∃ t, base.InPhase ∧ Instr.input false ≠ .powerOnReset ∧ exec (.input false) base = .next t) ∧
    (∃ t, false ≠ base.irIn ∧ false = base.edgeSel ∧ exec (.input false) base = .next t) :=
  ⟨⟨_, by decide, by decide, rfl⟩, ⟨_, by decide, by decide, rfl⟩⟩

/-- `LongPausePassesThePreamble`, at two overflows. -/
theorem witness_long_pause :
    2 ≤ 2 ∧ base.st = .preamble ∧ 2 ≤ { base with ovfCount := 2 }.ovfCount ∧
    base.cfg.preambleMin < base.cfg.satMax ∧ false ≠ base.irIn ∧ false = base.edgeSel := by decide

/-- Program P5's state before the two orders, with `n` overflows counted and captures that clear the flag or not. -/
def racing (n : Nat) (clears : Bool) : State :=
  { base8 with
    cfg := { base8.cfg with captureClearsOvfPending := clears }, cnt := 10, ovfPending := true, ovfCount := n }

/-- `OverflowAndCaptureRace`: no overflow counted, P5's one, and the saturated count where captures clear the flag. -/
theorem witness_race :
    ((racing 0 false).ovfPending = true ∧ 2 ≤ (racing 0 false).cfg.ovfWidth ∧ false ≠ (racing 0 false).irIn ∧
      false = (racing 0 false).edgeSel) ∧
    ((racing 1 false).ovfPending = true ∧ 2 ≤ (racing 1 false).cfg.ovfWidth ∧ false ≠ (racing 1 false).irIn ∧
      false = (racing 1 false).edgeSel ∧ 1 ≤ (racing 1 false).ovfCount) ∧
    ((racing 255 true).ovfPending = true ∧ 2 ≤ (racing 255 true).cfg.ovfWidth ∧ false ≠ (racing 255 true).irIn ∧
      false = (racing 255 true).edgeSel ∧ 1 ≤ (racing 255 true).ovfCount) := by decide

/-- `TimerTransactionsAreBlindToTheDecoder`: the clock, the handler, an unselected transition, and a repeated level of
the selected polarity. -/
theorem witness_timer_blind :
    (∃ t, exec .tick base = .next t) ∧ (∃ t, exec .ovfService base = .next t) ∧
    (∃ t, exec (.input true) { base with irIn := false } = .next t ∧ true ≠ { base with irIn := false }.edgeSel) ∧
    (∃ t, exec (.input true) { base with edgeSel := true } = .next t ∧
      true = { base with edgeSel := true }.irIn ∧ true = { base with edgeSel := true }.edgeSel) :=
  ⟨⟨_, rfl⟩, ⟨_, rfl⟩, ⟨_, rfl, by decide⟩, ⟨_, rfl, by decide, by decide⟩⟩

/-- `HeaderArcsAcceptOrResync`: each window just inside a bound, each failure on a bound, and the defaults. -/
theorem witness_header_arcs :
    (base.st = .preamble ∧ base.cfg.preambleMin < 10001#16) ∧
    ({ base with st := .syncHigh }.st = .syncHigh ∧ base.cfg.syncHigh.lo < 151#16 ∧ 151#16 < base.cfg.syncHigh.hi) ∧
    ({ base with st := .syncLow }.st = .syncLow ∧ base.cfg.syncLow.lo < 1099#16 ∧ 1099#16 < base.cfg.syncLow.hi) ∧
    ({ base with st := .headerHigh }.st = .headerHigh ∧ base.cfg.headerHigh.lo < 249#16 ∧
      249#16 < base.cfg.headerHigh.hi) ∧
    (base.st = .preamble ∧ ¬ base.cfg.preambleMin < 10000#16) ∧
    ({ base with st := .syncHigh }.st = .syncHigh ∧
      ¬ (base.cfg.syncHigh.lo < 150#16 ∧ 150#16 < base.cfg.syncHigh.hi)) ∧
    ({ base with st := .syncLow }.st = .syncLow ∧
      ¬ (base.cfg.syncLow.lo < 1100#16 ∧ 1100#16 < base.cfg.syncLow.hi)) ∧
    ({ base with st := .headerHigh }.st = .headerHigh ∧
      ¬ (base.cfg.headerHigh.lo < 250#16 ∧ 250#16 < base.cfg.headerHigh.hi)) ∧
    base.cfg.AtDefaults := by decide

/-- The state before a data bit, `n` bits collected. -/
def collecting (n : Nat) : State := { base with st := .bitAccumulate, bitCount := n }

/-- `BitArcShiftsInTheDecidedBit`: the last bit but one, with durations 599 and 600, and the inclusive bound. -/
theorem witness_bit_arc :
    (collecting 14).st = .bitAccumulate ∧ (collecting 14).bitCount + 1 < base.cfg.wordBits ∧ base.cfg.AtDefaults ∧
    ((base.cfg.bit1.lo < 599#16 ∨ (base.cfg.bit1LoInclusive = true ∧ 599#16 = base.cfg.bit1.lo)) ∧
      599#16 < base.cfg.bit1.hi) ∧
    ¬ ((base.cfg.bit1.lo < 600#16 ∨ (base.cfg.bit1LoInclusive = true ∧ 600#16 = base.cfg.bit1.lo)) ∧
      600#16 < base.cfg.bit1.hi) ∧
    ({ base.cfg with bit1LoInclusive := true }.bit1LoInclusive = true ∧ 500#16 = base.cfg.bit1.lo) := by decide

/-- `LastBitDeliversTheWord`: with no handler, and with a handler whose consumer makes no call. -/
theorem witness_last_bit :
    (collecting 15).st = .bitAccumulate ∧ (collecting 15).bitCount + 1 = base.cfg.wordBits ∧
    (collecting 15).handler = none ∧
    { collecting 15 with handler := some 2#8, consumer := [[]] }.consumer.headD [] = [] := by decide

/-- `ReentrantCallsAreRefused`. -/
theorem witness_reentrant :
    let s : State := { collecting 15 with handler := some 2#8, consumer := [[.reset]] }
    ∃ t, s.st = .bitAccumulate ∧ s.bitCount + 1 = s.cfg.wordBits ∧ s.handler = some 2#8 ∧
      s.consumer = (ConsumerCall.reset :: []) :: [] ∧
      exec (.submitEdge 550#16 false) { s with consumer := [] :: [] } = .next t :=
  ⟨_, by decide, by decide, rfl, rfl, rfl⟩

/-- `OverrunGuardDiscardsTheEvent`, at the count 16. -/
theorem witness_overrun : (collecting 16).st = .bitAccumulate ∧ base.cfg.wordBits ≤ (collecting 16).bitCount := by
  decide

/-- `AcceptanceIgnoresTheLevel`: one duration per state. -/
theorem witness_acceptance :
    (collecting 0).st = .bitAccumulate ∧
    (base.st = .preamble ∧ base.cfg.preambleMin < 65535#16) ∧
    ({ base with st := .syncHigh }.st = .syncHigh ∧ base.cfg.syncHigh.lo < 249#16 ∧ 249#16 < base.cfg.syncHigh.hi) ∧
    ({ base with st := .syncLow }.st = .syncLow ∧ base.cfg.syncLow.lo < 901#16 ∧ 901#16 < base.cfg.syncLow.hi) ∧
    ({ base with st := .headerHigh }.st = .headerHigh ∧ base.cfg.headerHigh.lo < 151#16 ∧
      151#16 < base.cfg.headerHigh.hi) := by decide

/-- `SubmitEdgeMillisClampsAndRescales`: an admissible configuration, and the cap itself at the defaults. -/
theorem witness_millis : base.cfg.wf ∧ base.cfg.AtDefaults ∧ 65 ≤ (65#8 : Millis).toNat := by decide

/-- `MillisecondEventsFitOneWindow`: the defaults, each state, and the counts on both sides of Preamble's bound. -/
theorem witness_millis_windows :
    base.cfg.AtDefaults ∧ base.st = .preamble ∧ 11 ≤ (11#8 : Millis).toNat ∧ (10#8 : Millis).toNat ≤ 10 ∧
    { base with st := .syncHigh }.st = .syncHigh ∧ { base with st := .headerHigh }.st = .headerHigh ∧
    { base with st := .syncLow }.st = .syncLow ∧ (collecting 14).st = .bitAccumulate ∧ (collecting 14).bitCount < 15 := by
  decide

/-- `UnfinishedEventsAreInvisible`: in Preamble, and in BitAccumulate before the last bit and at the guard. -/
theorem witness_unfinished :
    ¬ (base.st = .bitAccumulate ∧ base.bitCount + 1 = base.cfg.wordBits) ∧
    ¬ ((collecting 14).st = .bitAccumulate ∧ (collecting 14).bitCount + 1 = base.cfg.wordBits) ∧
    ¬ ((collecting 16).st = .bitAccumulate ∧ (collecting 16).bitCount + 1 = base.cfg.wordBits) := by decide

/-- `RemainingEventsSpellTheWord`: the last event alone, and all sixteen. -/
theorem witness_remaining_events :
    ((collecting 15).st = .bitAccumulate ∧ base.cfg.wordBits = 16 ∧ (collecting 15).acc.toNat < 2 ^ 15 ∧
      [((550#16 : Duration), true)] ≠ [] ∧ (collecting 15).bitCount + [((550#16 : Duration), true)].length = 16) ∧
    ((collecting 0).acc.toNat < 2 ^ 0 ∧ List.replicate 16 ((300#16 : Duration), false) ≠ [] ∧
      (collecting 0).bitCount + (List.replicate 16 ((300#16 : Duration), false)).length = 16) := by decide

/-- `SubmittedFrameDeliversItsWord`: from Preamble, and from the state a glitch leaves. -/
theorem witness_frame :
    base.cfg.AtDefaults ∧ base.st ≠ .bitAccumulate ∧ { base with st := .syncLow }.st ≠ .bitAccumulate ∧
    base.acc = 0#16 ∧ base.bitCount = 0 := by decide

/-- `LineFrameDeliversItsWord`: P2's setting. -/
theorem witness_line_frame :
    let s : State := State.powerOn (Config.atDefaults 16 1 1 true false)
    s.cfg.AtDefaults ∧ s.cfg.tickNum = s.cfg.tickDen ∧ 1 ≤ s.cfg.tickDen ∧ 12000 < 2 ^ s.cfg.timerWidth ∧
      s.cnt = 0 ∧ s.ovfPending = false ∧ s.ovfCount = 0 ∧ s.irIn = false ∧ s.edgeSel = true ∧
      s.st ≠ .bitAccumulate ∧ s.acc = 0#16 ∧ s.bitCount = 0 := by decide

/-- `ResetClearsOnlyTheDecoder`, its idempotence clause. -/
theorem witness_reset : ∃ t, exec .reset (collecting 6) = .next t := ⟨_, rfl⟩

/-- `RegisterCallbackTakesTheSlot`: its third clause under `POWER_ON_RESET`, its fourth under a registration. -/
theorem witness_slot :
    (∃ t, exec .powerOnReset { base with handler := some 3#8 } = .next t ∧
      { base with handler := some 3#8 }.handler ≠ none ∧ t.handler = none) ∧
    (∃ t, exec (.registerCallback 7#8) base = .next t ∧ t.handler ≠ base.handler) :=
  ⟨⟨_, rfl, by decide, by decide⟩, ⟨_, rfl, by decide⟩⟩

/-- `ResetConfigurationIsAdmissible`, its last clause. -/
theorem witness_defaults : base.cfg.AtDefaults := by decide

/-- `HostTransactionsAreBlindToTheTimer`: each of the four answers a next state. -/
theorem witness_host_blind :
    (∃ t, exec .reset base = .next t) ∧ (∃ t, exec (.submitEdge 0#16 true) base = .next t) ∧
    (∃ t, exec (.submitEdgeMillis 255#8 true) base = .next t) ∧
    (∃ t, exec (.registerCallback 0#8) base = .next t) := ⟨⟨_, rfl⟩, ⟨_, rfl⟩, ⟨_, rfl⟩, ⟨_, rfl⟩⟩

/-- `LogGrowsByOneCompletedWord`: a step that completes a word. -/
theorem witness_log : ∃ t, step { collecting 15 with stream := [0x50000226#32] } = .next t ∧ t.out ≠ [] :=
  ⟨_, rfl, by decide⟩

/-- `MarkIsStickyAndHasTwoCauses`: an accepted word, an ill-formed word, and a re-entrant call. -/
theorem witness_mark :
    (∃ t, { base with stream := [0x10000000#32] }.stream = [0x10000000#32] ∧
      step { base with stream := [0x10000000#32] } = .next t ∧ t.refused = false) ∧
    (∃ t, { base with stream := [0x90000000#32] }.stream = [0x90000000#32] ∧
      step { base with stream := [0x90000000#32] } = .next t ∧ t.refused = true) ∧
    (∃ t, step { collecting 15 with
        stream := [0x50000226#32], handler := some 2#8, consumer := [[.registerCallback 1#8]] } = .next t ∧
      t.refused = true) :=
  ⟨⟨_, rfl, rfl, by decide⟩, ⟨_, rfl, rfl, by decide⟩, ⟨_, rfl, by decide⟩⟩

/-- `InvariantHoldsAtPowerOn`, its second clause. -/
theorem witness_admissible_configuration : base.cfg.wf := by decide

/-- `EveryStepKeepsTheInvariant`: a state of the invariant with bits collected, and its step. -/
theorem witness_invariant :
    let s : State := { collecting 3 with acc := 0x0005#16, stream := [0x50010226#32] }
    s.Inv ∧ ∃ t, step s = .next t :=
  ⟨⟨by decide, by decide, by decide, by decide, by decide, by decide, by decide⟩, ⟨_, rfl⟩⟩

/-- `ReachableStatesAgreeWithTheirPhase`: a run of two words. -/
theorem witness_reachable :
    base.cfg.wf ∧ base.cfg.wordBits = 16 ∧
    ∃ t, runSteps 2 (State.start base.cfg [0x80000000#32, 0x50012EE0#32] []) = .next t ∧ t.st = .syncHigh :=
  ⟨by decide, by decide, ⟨_, rfl, by decide⟩⟩

/-- `StateCodesReadBack`: the first unused code. -/
theorem witness_unused_code : (5#3 : BitVec 3) ≤ 5#3 := by decide

/-- `OutOfRangeOperandsEmitNoWord`: the levels and words in range at their bounds, and a text that reads as a line
whose operand is out of range. -/
theorem witness_lines :
    1 ≤ 1 ∧ 65535 ≤ 65535 ∧ parseLine "PULSE 5, 2".toList = some [.pulse 5 2] := by decide

end Sys2Proof.Tests
end

section
/-! SUPPORT. The capture polarity and its mirror on the status output (40_edge_timer.md R59): what each operation does
to the two fields, and the statement that only a capture moves them. -/

namespace Sys2Proof.Machine

/-- One event writes the decoder, the log and the traces of the callback, and nothing of the timer (R63). -/
theorem decodeEvent_writes (d : Duration) (level : Bool) (s : State) :
    ∃ st acc bitCount out refused consumer,
      decodeEvent d level s =
        { s with
          st := st, acc := acc, bitCount := bitCount, out := out, refused := refused, consumer := consumer } := by
  obtain ⟨-, ⟨-, h⟩ | ⟨-, h⟩ | ⟨-, h⟩ | ⟨-, h⟩ | h⟩ | ⟨-, h⟩ := decodeEvent_cases d level s
  case inr =>
    obtain ⟨-, arc⟩ | ⟨-, arc⟩ | ⟨-, arc⟩ := arcBit_cases d s
    · exact ⟨_, _, _, _, _, _, h.trans arc⟩
    · exact ⟨_, _, _, _, _, _, h.trans arc⟩
    · exact ⟨_, _, _, _, _, _, h.trans (arc.trans (complete_eq _))⟩
  all_goals exact ⟨_, _, _, _, _, _, h⟩

theorem decodeEvent_keeps_polarity (d : Duration) (level : Bool) (s : State) :
    (decodeEvent d level s).edgeSel = s.edgeSel ∧ (decodeEvent d level s).statusOut = s.statusOut := by
  obtain ⟨_, _, _, _, _, _, h⟩ := decodeEvent_writes d level s
  rw [h]
  exact ⟨rfl, rfl⟩

theorem capture_toggles_polarity (s : State) :
    (capture s).edgeSel = !s.edgeSel ∧ (capture s).statusOut = !s.edgeSel :=
  decodeEvent_keeps_polarity _ _ (rearm s)

theorem countTick_keeps_polarity (s : State) :
    (countTick s).edgeSel = s.edgeSel ∧ (countTick s).statusOut = s.statusOut := by
  obtain ⟨-, h⟩ | ⟨-, h⟩ := countTick_cases s <;> rw [h] <;> exact ⟨rfl, rfl⟩

theorem serviceOverflow_keeps_polarity (s : State) :
    (serviceOverflow s).edgeSel = s.edgeSel ∧ (serviceOverflow s).statusOut = s.statusOut := by
  unfold serviceOverflow
  split <;> exact ⟨rfl, rfl⟩

/-- A selected transition is captured (R55, R57). -/
theorem lineLevel_of_selected (level : Bool) (s : State) (transition : level ≠ s.irIn)
    (selected : level = s.edgeSel) : lineLevel level s = capture { s with irIn := level } := by
  obtain ⟨same, -⟩ | ⟨-, other, -⟩ | ⟨-, -, h⟩ := lineLevel_cases level s
  · exact absurd same transition
  · exact absurd selected other
  · exact h

/-- A level that is no selected transition is at most recorded (R55). -/
theorem lineLevel_keeps_polarity (level : Bool) (s : State) (uncaptured : level = s.irIn ∨ level ≠ s.edgeSel) :
    (lineLevel level s).edgeSel = s.edgeSel ∧ (lineLevel level s).statusOut = s.statusOut := by
  obtain ⟨-, h⟩ | ⟨-, -, h⟩ | ⟨transition, selected, -⟩ := lineLevel_cases level s
  · rw [h]
    exact ⟨rfl, rfl⟩
  · rw [h]
    exact ⟨rfl, rfl⟩
  · exact absurd uncaptured (not_or.2 ⟨transition, not_not.2 selected⟩)

/-- Settles O19: a capture rearms the timer with the polarity toggled, and no other operation but power-on writes
either field. -/
theorem onlyCapturesMoveThePolarity : Obligations.OnlyCapturesMoveThePolarity := by
  refine ⟨fun s t level transition selected h => ?_, fun i s t h notPowerOn uncaptured => ?_⟩
  · obtain rfl : lineLevel level s = t := Host.Outcome.next.inj h
    rw [lineLevel_of_selected level s transition selected]
    obtain ⟨polarity, pin⟩ := capture_toggles_polarity { s with irIn := level }
    exact ⟨polarity, pin.trans polarity.symm⟩
  · cases i with
    | tick => cases h; exact countTick_keeps_polarity s
    | ovfService => cases h; exact serviceOverflow_keeps_polarity s
    | input level => cases h; exact lineLevel_keeps_polarity level s (uncaptured level rfl)
    | reset => cases h; exact ⟨rfl, rfl⟩
    | submitEdge d level => cases h; exact decodeEvent_keeps_polarity d level s
    | submitEdgeMillis m level => cases h; exact decodeEvent_keeps_polarity _ level s
    | registerCallback handler => cases h; exact ⟨rfl, rfl⟩
    | powerOnReset => exact absurd rfl notPowerOn

end Sys2Proof.Machine
end

section
/-! SUPPORT. The event injection at the end of a word (41_protocol_decoder.md R75) and short of it (R84): the last bit
delivers the word, every other event stays inside the decoder's own three fields. -/

namespace Sys2Proof.Machine

/-- `SUBMIT_EDGE` is one run of the decoder (R64). -/
theorem exec_submitEdge (d : Duration) (level : Bool) (s : State) :
    exec (.submitEdge d level) s = .next (decodeEvent d level s) := rfl

/-- The event that carries the last bit of a word runs `complete` on the accumulator it filled (R71, R75). -/
theorem decodeEvent_of_lastBit (d : Duration) (level : Bool) (s : State) (collecting : s.st = .bitAccumulate)
    (last : s.bitCount + 1 = s.cfg.wordBits) : decodeEvent d level s = complete (accumulate d s) := by
  obtain ⟨early, -⟩ | ⟨-, arc⟩ := decodeEvent_cases d level s
  · exact absurd collecting early
  · obtain ⟨full, -⟩ | ⟨short, -⟩ | ⟨-, completed⟩ := arcBit_cases d s
    · omega
    · omega
    · exact arc.trans completed

/-- A callback that makes no call leaves no mark: the slot is empty, or the consumer's script for it is. -/
theorem complete_of_no_call (s : State) (silent : s.handler = none ∨ s.consumer.headD [] = []) :
    complete s =
      { s with
        st := .preamble
        acc := 0#16
        bitCount := 0
        out := s.out ++ [⟨s.handler, s.acc, s.cfg.repeatCount⟩]
        consumer := (complete s).consumer } := by
  have noCall : (s.handler.isSome && !(s.consumer.headD []).isEmpty) = false := by
    obtain noHandler | noScript := silent
    · rw [noHandler]; rfl
    · rw [noScript]; exact Bool.and_false _
  rw [complete_consumer, complete_eq, noCall, Bool.or_false]

/-- Settles O26: the last bit completes the word, and a callback without calls adds only its turn of the consumer's
script. -/
theorem lastBitDeliversTheWord : Obligations.LastBitDeliversTheWord := by
  intro s d level collecting last silent
  refine ⟨_, exec_submitEdge d level s, ?_⟩
  rw [decodeEvent_of_lastBit d level s collecting last]
  exact complete_of_no_call (accumulate d s) silent

/-- Short of a word's last bit the decoder writes its state and its accumulator, and nothing else (R84). -/
theorem decodeEvent_of_unfinished (d : Duration) (level : Bool) (s : State)
    (unfinished : ¬ (s.st = .bitAccumulate ∧ s.bitCount + 1 = s.cfg.wordBits)) :
    ∃ st acc bitCount, decodeEvent d level s = { s with st := st, acc := acc, bitCount := bitCount } := by
  obtain ⟨-, ⟨-, h⟩ | ⟨-, h⟩ | ⟨-, h⟩ | ⟨-, h⟩ | h⟩ | ⟨collecting, h⟩ := decodeEvent_cases d level s
  case inr =>
    obtain ⟨-, arc⟩ | ⟨-, arc⟩ | ⟨last, -⟩ := arcBit_cases d s
    · exact ⟨_, _, _, h.trans arc⟩
    · exact ⟨_, _, _, h.trans arc⟩
    · exact absurd ⟨collecting, last⟩ unfinished
  all_goals exact ⟨_, _, _, h⟩

/-- Settles O33: of the decoder's outcomes only a completed word leaves the fields `st`, `acc` and `bitCount`. -/
theorem unfinishedEventsAreInvisible : Obligations.UnfinishedEventsAreInvisible := by
  intro s d level unfinished
  obtain ⟨st, acc, bitCount, h⟩ := decodeEvent_of_unfinished d level s unfinished
  exact ⟨_, exec_submitEdge d level s, rfl, by rw [h]⟩

end Sys2Proof.Machine
end

section
/-! SUPPORT. The callback slot (42_host_control.md R88): the decoding of its registration, and what each operation of
the timer and the decoder leaves in it. -/

namespace Sys2Proof

/-- A word selects no row of another operation code, where the row's mask holds the whole field `OP` (R39, R41). -/
theorem not_selects_of_opField_ne (r : Row) (w : Word) (whole : opField r.mask = 15#4)
    (other : opField w ≠ opField r.pattern) : r.selects w = false := by
  refine beq_eq_false_iff_ne.2 fun selected => other ?_
  calc opField w = opField w &&& opField r.mask := by rw [whole]; exact (BitVec.and_allOnes (x := opField w)).symm
    _ = opField (w &&& r.mask) := BitVec.extractLsb'_and.symm
    _ = opField r.pattern := by rw [selected]

/-- A registration's word decodes to it, its handler's id included (R41, R42). -/
theorem decode_encode_registerCallback (h : HandlerId) :
    decode (encode (.registerCallback h)) = .ok (.registerCallback h) := by
  have skips (r : Row) (whole : opField r.mask = 15#4) (other : 7#4 ≠ opField r.pattern) :
      r.selects (encode (.registerCallback h)) = false :=
    not_selects_of_opField_ne r _ whole (by rwa [opField_encode_registerCallback])
  have selected : rowRegisterCallback.selects (encode (.registerCallback h)) = true :=
    (Laws.SelectsItsRow.registerCallback h).1
  simp [decode, selected, skips rowTick (by decide) (by decide), skips rowOvfService (by decide) (by decide),
    skips rowInput (by decide) (by decide), skips rowReset (by decide) (by decide),
    skips rowSubmitEdge (by decide) (by decide), skips rowSubmitEdgeMillis (by decide) (by decide)]

end Sys2Proof

namespace Sys2Proof.Machine

@[simp] theorem decodeEvent_handler (d : Duration) (level : Bool) (s : State) :
    (decodeEvent d level s).handler = s.handler := by
  obtain ⟨_, _, _, _, _, _, h⟩ := decodeEvent_writes d level s
  rw [h]

@[simp] theorem countTick_handler (s : State) : (countTick s).handler = s.handler := by
  obtain ⟨-, h⟩ | ⟨-, h⟩ := countTick_cases s <;> rw [h]

@[simp] theorem serviceOverflow_handler (s : State) : (serviceOverflow s).handler = s.handler := by
  unfold serviceOverflow
  split <;> rfl

@[simp] theorem capture_handler (s : State) : (capture s).handler = s.handler :=
  decodeEvent_handler _ _ (rearm s)

@[simp] theorem lineLevel_handler (level : Bool) (s : State) : (lineLevel level s).handler = s.handler := by
  obtain ⟨-, h⟩ | ⟨-, -, h⟩ | ⟨-, -, h⟩ := lineLevel_cases level s
  · rw [h]
  · rw [h]
  · rw [h, capture_handler]

/-- All a transaction can do to the slot: leave it, or write it by power-on or by a registration (R88, R92). -/
theorem exec_handler_cases (i : Instr) (s t : State) (ran : exec i s = .next t) :
    t.handler = s.handler ∨ i = .powerOnReset ∨ ∃ h, i = .registerCallback h ∧ t.handler = some h := by
  cases i with
  | tick => cases ran; exact .inl (countTick_handler s)
  | ovfService => cases ran; exact .inl (serviceOverflow_handler s)
  | input level => cases ran; exact .inl (lineLevel_handler level s)
  | reset => cases ran; exact .inl (fullReset_handler s)
  | submitEdge d level => cases ran; exact .inl (decodeEvent_handler d level s)
  | submitEdgeMillis m level => cases ran; exact .inl (decodeEvent_handler _ level s)
  | registerCallback h => cases ran; exact .inr (.inr ⟨h, rfl, rfl⟩)
  | powerOnReset => exact .inr (.inl rfl)

/-- Settles O38: a registration's word selects its row alone, and of the writers of the slot only power-on leaves it
empty. -/
theorem registerCallbackTakesTheSlot : Obligations.RegisterCallbackTakesTheSlot := by
  refine ⟨decode_encode_registerCallback, fun s h => rfl, fun i s t ran filled emptied => ?_,
    fun i s t ran moved => ?_⟩
  · obtain kept | powerOn | ⟨h, -, taken⟩ := exec_handler_cases i s t ran
    · exact absurd (kept.symm.trans emptied) filled
    · exact powerOn
    · cases taken.symm.trans emptied
  · obtain kept | powerOn | ⟨h, registration, -⟩ := exec_handler_cases i s t ran
    · exact absurd kept moved
    · exact .inl powerOn
    · exact .inr ⟨h, registration⟩

end Sys2Proof.Machine
end

section
/-! SUPPORT. The decoder and the encoder as inverses of each other (30_encoding.md R41 to R44): which row a word
selects, which words are well-formed, and what the decoder reads from a word that selects an instruction's row. -/

namespace Sys2Proof

/-! ## Fields -/

/-- The bits of a field of `len` bits from `start` up. -/
def fieldMask (start len : Nat) : Word := (BitVec.allOnes len).setWidth 32 <<< start

theorem getLsbD_fieldMask (start len k : Nat) (hk : k < 32) :
    (fieldMask start len).getLsbD k = decide (start ≤ k ∧ k < start + len) := by
  rw [fieldMask, BitVec.getLsbD_shiftLeft, BitVec.getLsbD_setWidth, BitVec.getLsbD_allOnes, Bool.eq_iff_iff]
  simp
  omega

/-- Masking a word to a field keeps the field, in its place. -/
theorem and_fieldMask (w : Word) (start len : Nat) :
    w &&& fieldMask start len = (w.extractLsb' start len).setWidth 32 <<< start := by
  apply BitVec.eq_of_getLsbD_eq
  intro k hk
  rw [BitVec.getLsbD_and, getLsbD_fieldMask start len k hk]
  by_cases below : k < start
  · simp [below, hk]
  · have place : start + (k - start) = k := by omega
    have inField : k - start < len ↔ k < start + len := by omega
    simp [below, hk, place, inField, Nat.le_of_not_lt below, Bool.and_comm]

/-- A field is zero exactly when the word masked to it is. -/
theorem and_fieldMask_eq_zero_iff (w : Word) (start len : Nat) (fits : start + len ≤ 32) :
    w &&& fieldMask start len = 0#32 ↔ w.extractLsb' start len = 0#len := by
  constructor
  · intro clear
    apply BitVec.eq_of_getLsbD_eq
    intro k hk
    have bit := congrArg (BitVec.getLsbD · (start + k)) clear
    simpa [getLsbD_fieldMask _ _ _ (show start + k < 32 by omega), hk] using bit
  · intro clear
    rw [and_fieldMask, clear]
    simp

theorem extractLsb'_one (w : Word) (k : Nat) : w.extractLsb' k 1 = BitVec.ofBool (w.getLsbD k) := by
  apply BitVec.eq_of_getLsbD_eq
  intro j hj
  obtain rfl : j = 0 := by omega
  simp

/-! ## Rows -/

/-- Every row's mask is the field `OP` with the bits reserved under the row's code, and its pattern is that code
alone (R39, R41). -/
theorem rows_table : ∀ r ∈ rows,
    opField r.mask = 15#4 ∧ r.mask = fieldMask 28 4 ||| reservedBits (opField r.pattern) ∧
    r.pattern = (opField r.pattern).setWidth 32 <<< 28 ∧ r.pattern &&& reservedBits (opField r.pattern) = 0#32 ∧
    r.mask &&& reservedBits (opField r.pattern) = reservedBits (opField r.pattern) := by
  decide

theorem rows_legalOp : ∀ r ∈ rows, legalOp (opField r.pattern) = true := by decide

theorem rows_eq_of_opField_eq : ∀ r ∈ rows, ∀ q ∈ rows, opField r.pattern = opField q.pattern → r = q := by decide

theorem exists_row_of_legalOp : ∀ op : BitVec 4, legalOp op = true → ∃ r ∈ rows, opField r.pattern = op := by decide

theorem rowOf_mem_rows (i : Instr) : rowOf i ∈ rows := by
  cases i <;> simp [rowOf, rows]

theorem exists_instr_of_row : ∀ r ∈ rows, ∃ i, rowOf i = r := by
  simp only [rows, List.forall_mem_cons]
  exact ⟨⟨.tick, rfl⟩, ⟨.ovfService, rfl⟩, ⟨.input false, rfl⟩, ⟨.reset, rfl⟩, ⟨.submitEdge 0#16 false, rfl⟩,
    ⟨.submitEdgeMillis 0#8 false, rfl⟩, ⟨.registerCallback 0#8, rfl⟩, ⟨.powerOnReset, rfl⟩, by simp⟩

/-- A row's word shows the row's operation code, where the mask holds the whole field `OP` (R39, R41). -/
theorem opField_of_selects (r : Row) (w : Word) (whole : opField r.mask = 15#4) (selected : r.selects w = true) :
    opField w = opField r.pattern := by
  by_contra other
  exact absurd selected (by simp [not_selects_of_opField_ne r w whole other])

/-- A word selects a row exactly when it shows the row's code and no bit reserved under it (R39, R41, R43). -/
theorem selects_iff (r : Row) (mem : r ∈ rows) (w : Word) :
    r.selects w = true ↔ opField w = opField r.pattern ∧ w &&& reservedBits (opField w) = 0#32 := by
  obtain ⟨whole, mask, pattern, clean, within⟩ := rows_table r mem
  constructor
  · intro selected
    have code := opField_of_selects r w whole selected
    have masked : w &&& r.mask = r.pattern := eq_of_beq selected
    refine ⟨code, ?_⟩
    rw [code, ← within, ← BitVec.and_assoc, masked, clean]
  · rintro ⟨code, free⟩
    refine beq_iff_eq.2 ?_
    calc w &&& r.mask = w &&& fieldMask 28 4 ||| w &&& reservedBits (opField r.pattern) := by
          rw [mask, BitVec.and_or_distrib_left]
      _ = r.pattern := by rw [← code, free, BitVec.or_zero, and_fieldMask, ← opField, code, ← pattern]

/-- A word is well-formed exactly when it selects a row (R41, R43, R44). -/
theorem wellFormedWord_iff_selects (w : Word) :
    wellFormedWord w = true ↔ ∃ r ∈ rows, r.selects w = true := by
  rw [wellFormedWord, Bool.and_eq_true, beq_iff_eq]
  constructor
  · rintro ⟨legal, free⟩
    obtain ⟨r, mem, code⟩ := exists_row_of_legalOp _ legal
    exact ⟨r, mem, (selects_iff r mem w).2 ⟨code.symm, free⟩⟩
  · rintro ⟨r, mem, selected⟩
    obtain ⟨code, free⟩ := (selects_iff r mem w).1 selected
    exact ⟨code ▸ rows_legalOp r mem, free⟩

/-- No word selects two rows (R44). -/
theorem row_unique (w : Word) (r q : Row) (memR : r ∈ rows) (memQ : q ∈ rows) (selR : r.selects w = true)
    (selQ : q.selects w = true) : r = q :=
  rows_eq_of_opField_eq r memR q memQ
    (((selects_iff r memR w).1 selR).1.symm.trans ((selects_iff q memQ w).1 selQ).1)

/-! ## Decoding -/

/-- The instruction `i` with its operands taken from the fields of `w` (R42). -/
def Instr.reread (w : Word) : Instr → Instr
  | .tick => .tick
  | .ovfService => .ovfService
  | .input _ => .input (levelField w)
  | .reset => .reset
  | .submitEdge _ _ => .submitEdge (durationField w) (levelField w)
  | .submitEdgeMillis _ _ => .submitEdgeMillis (millisField w) (levelField w)
  | .registerCallback _ => .registerCallback (handlerField w)
  | .powerOnReset => .powerOnReset

theorem selects_eq_decide (w : Word) (i : Instr) (selected : (rowOf i).selects w = true) (r : Row) (mem : r ∈ rows) :
    r.selects w = decide (r = rowOf i) := by
  by_cases same : r = rowOf i
  · simp [same, selected]
  · have other : r.selects w ≠ true := fun h => same (row_unique w r _ mem (rowOf_mem_rows i) h selected)
    simp [same, other]

/-- A word that selects an instruction's row decodes to that instruction, with the word's operands (R41, R42). -/
theorem decode_of_selects (w : Word) (i : Instr) (selected : (rowOf i).selects w = true) :
    decode w = .ok (i.reread w) := by
  have reads := selects_eq_decide w i selected
  simp only [rows, List.forall_mem_cons] at reads
  obtain ⟨r1, r2, r3, r4, r5, r6, r7, r8, -⟩ := reads
  rw [decode, r1, r2, r3, r4, r5, r6, r7, r8]
  cases i <;> rfl

/-- A word that selects no row is rejected (R43). -/
theorem decode_of_selects_none (w : Word) (none : ∀ r ∈ rows, r.selects w = false) :
    decode w = .error (rejection w) := by
  simp only [rows, List.forall_mem_cons] at none
  obtain ⟨r1, r2, r3, r4, r5, r6, r7, r8, -⟩ := none
  simp [decode, r1, r2, r3, r4, r5, r6, r7, r8]

theorem decode_of_wellFormed (w : Word) (wf : wellFormedWord w = true) :
    ∃ i, (rowOf i).selects w = true ∧ decode w = .ok (i.reread w) := by
  obtain ⟨r, mem, selected⟩ := (wellFormedWord_iff_selects w).1 wf
  obtain ⟨i, rfl⟩ := exists_instr_of_row r mem
  exact ⟨i, selected, decode_of_selects w i selected⟩

theorem selects_none_of_illFormed (w : Word) (illFormed : wellFormedWord w = false) :
    ∀ r ∈ rows, r.selects w = false := fun r mem =>
  Bool.eq_false_iff.2 fun selected =>
    Bool.eq_false_iff.1 illFormed ((wellFormedWord_iff_selects w).2 ⟨r, mem, selected⟩)

theorem decode_of_illFormed (w : Word) (illFormed : wellFormedWord w = false) :
    decode w = .error (rejection w) :=
  decode_of_selects_none w (selects_none_of_illFormed w illFormed)

/-- The decoder answers an instruction on exactly the well-formed words. -/
theorem wellFormed_of_decode (w : Word) (i : Instr) (decoded : decode w = .ok i) : wellFormedWord w = true := by
  by_contra illFormed
  rw [decode_of_illFormed w (Bool.eq_false_iff.2 illFormed)] at decoded
  cases decoded

/-! ## Round trips -/

/-- The encoding selects its instruction's row (R41). -/
theorem selects_encode (i : Instr) : (rowOf i).selects (encode i) = true := by
  cases i with
  | tick => exact Laws.SelectsItsRow.tick.1
  | ovfService => exact Laws.SelectsItsRow.ovfService.1
  | input level => exact (Laws.SelectsItsRow.input level).1
  | reset => exact Laws.SelectsItsRow.reset.1
  | submitEdge d level => exact (Laws.SelectsItsRow.submitEdge d level).1
  | submitEdgeMillis m level => exact (Laws.SelectsItsRow.submitEdgeMillis m level).1
  | registerCallback h => exact (Laws.SelectsItsRow.registerCallback h).1
  | powerOnReset => exact Laws.SelectsItsRow.powerOnReset.1

@[simp] theorem levelField_encode_input (level : Bool) : levelField (encode (.input level)) = level := by
  cases level <;> rfl

/-- The fields of an encoding hold its operands, every bit of them (R42). -/
theorem reread_encode (i : Instr) : i.reread (encode i) = i := by
  cases i <;> simp [Instr.reread]

theorem decode_encode (i : Instr) : decode (encode i) = .ok i := by
  rw [decode_of_selects _ i (selects_encode i), reread_encode]

/-- Settles O2: an encoding selects its instruction's row, whose operand fields it holds. -/
theorem decodeOfEncodeIsTheInstruction : Obligations.DecodeOfEncodeIsTheInstruction := decode_encode

theorem levelBits_levelField (w : Word) : levelBits (levelField w) = w &&& fieldMask 16 1 := by
  rw [and_fieldMask, extractLsb'_one, levelField]
  cases w.getLsbD 16 <;> rfl

/-- A field that stands from bit 0 up goes back into its place. -/
theorem setWidth_lowField (w : Word) (len : Nat) : (w.extractLsb' 0 len).setWidth 32 = w &&& fieldMask 0 len := by
  rw [and_fieldMask, BitVec.shiftLeft_zero]

/-- The bits of an instruction's word that hold its operands (R39). -/
def operandMask : Instr → Word
  | .input _ => fieldMask 16 1
  | .submitEdge _ _ => fieldMask 16 1 ||| fieldMask 0 16
  | .submitEdgeMillis _ _ => fieldMask 16 1 ||| fieldMask 0 8
  | .registerCallback _ => fieldMask 0 8
  | .tick | .ovfService | .reset | .powerOnReset => 0#32

/-- A row's mask leaves out exactly the operand fields (R39, R41). -/
theorem not_mask_rowOf (i : Instr) : ~~~(rowOf i).mask = operandMask i := by
  cases i <;> simp only [rowOf, operandMask] <;> decide

/-- Encoding what was read puts back every bit outside the row's mask (R41, R42). -/
theorem encode_reread (w : Word) (i : Instr) :
    encode (i.reread w) = (rowOf i).pattern ||| (w &&& ~~~(rowOf i).mask) := by
  rw [not_mask_rowOf]
  cases i <;>
    simp only [Instr.reread, encode, rowOf, operandMask, levelBits_levelField, durationField, millisField, handlerField,
      setWidth_lowField, BitVec.and_or_distrib_left, BitVec.or_assoc, BitVec.and_zero, BitVec.or_zero]

theorem encode_reread_of_selects (w : Word) (i : Instr) (selected : (rowOf i).selects w = true) :
    encode (i.reread w) = w := by
  have masked : w &&& (rowOf i).mask = (rowOf i).pattern := eq_of_beq selected
  rw [encode_reread, ← masked, ← BitVec.and_or_distrib_left, BitVec.or_not_self, BitVec.and_allOnes]

/-- Settles O3: a word is its row's pattern with its operand fields, and the encoder writes both. -/
theorem decodedWordIsTheEncoding : Obligations.DecodedWordIsTheEncoding := by
  intro w i decoded
  obtain ⟨j, selected, read⟩ := decode_of_wellFormed w (wellFormed_of_decode w i decoded)
  obtain rfl : j.reread w = i := Except.ok.inj (read.symm.trans decoded)
  exact encode_reread_of_selects w j selected

/-! ## Well-formed words -/

/-- The bits reserved under an operation code, field by field (R39). -/
theorem reservedBits_eq_fields : ∀ op : BitVec 4,
    reservedBits op =
      fieldMask 17 11 |||
        ((if op = 3#4 ∨ op = 5#4 ∨ op = 6#4 then 0#32 else fieldMask 16 1) |||
          ((if op = 5#4 then 0#32 else fieldMask 8 8) |||
            (if op = 5#4 ∨ op = 6#4 ∨ op = 7#4 then 0#32 else fieldMask 0 8))) := by
  decide

theorem and_ite_eq_zero_iff (w mask : Word) (operand : Prop) [Decidable operand] :
    w &&& (if operand then 0#32 else mask) = 0#32 ↔ (¬ operand → w &&& mask = 0#32) := by
  by_cases operand <;> simp [*]

/-- Settles O4: the reserved bits are a union of fields, and each field is zero on its own. -/
theorem wellFormedWordsFollowTheFieldTable : Obligations.WellFormedWordsFollowTheFieldTable := by
  intro w
  have level : w &&& fieldMask 16 1 = 0#32 ↔ w.getLsbD 16 = false := by
    rw [and_fieldMask_eq_zero_iff w 16 1 (by decide), extractLsb'_one]
    cases w.getLsbD 16 <;> decide
  rw [wellFormedWord, Bool.and_eq_true, beq_iff_eq, reservedBits_eq_fields]
  simp only [BitVec.and_or_distrib_left, BitVec.or_eq_zero_iff, and_ite_eq_zero_iff, not_or, and_imp, level,
    and_fieldMask_eq_zero_iff w 17 11 (by decide), and_fieldMask_eq_zero_iff w 8 8 (by decide),
    and_fieldMask_eq_zero_iff w 0 8 (by decide), legalOp, Bool.and_eq_true, decide_eq_true_eq, ne_eq]

/-- Settles O5: a well-formed word selects its one row and decodes, any other selects none and is rejected. -/
theorem everyWordSelectsOneRowOrIsIllFormed : Obligations.EveryWordSelectsOneRowOrIsIllFormed := by
  intro w
  cases wf : wellFormedWord w with
  | true =>
    obtain ⟨i, selected, read⟩ := decode_of_wellFormed w wf
    exact .inl ⟨rfl, ⟨rowOf i, ⟨rowOf_mem_rows i, selected⟩,
      fun q other => row_unique w q _ other.1 (rowOf_mem_rows i) other.2 selected⟩, _, read⟩
  | false => exact .inr ⟨rfl, selects_none_of_illFormed w wf, _, decode_of_illFormed w wf⟩

/-- Settles O1: eight of the words are encodings, and each of the other three selects no row. -/
theorem writtenOutWordsDecode : Obligations.WrittenOutWordsDecode :=
  ⟨decode_encode .tick, decode_encode .ovfService, decode_encode (.input true), decode_encode .reset,
    decode_encode (.submitEdge 65535#16 true), decode_encode (.submitEdgeMillis 70#8 false),
    decode_encode (.registerCallback 255#8), decode_encode .powerOnReset,
    decode_of_illFormed 0x00000000#32 (by decide), decode_of_illFormed 0x50020000#32 (by decide),
    decode_of_illFormed 0x90000000#32 (by decide)⟩

end Sys2Proof
end

section
/-! SUPPORT. What each operation leaves unchanged: the decoder the timer, the line, the configuration and the words to
come; every transaction the last two (00_scope.md R6, R9; 41_protocol_decoder.md R63, R64). -/

namespace Sys2Proof.Machine

@[simp] theorem decodeEvent_cnt (d : Duration) (level : Bool) (s : State) : (decodeEvent d level s).cnt = s.cnt := by
  obtain ⟨_, _, _, _, _, _, h⟩ := decodeEvent_writes d level s
  rw [h]

@[simp] theorem decodeEvent_ovfPending (d : Duration) (level : Bool) (s : State) :
    (decodeEvent d level s).ovfPending = s.ovfPending := by
  obtain ⟨_, _, _, _, _, _, h⟩ := decodeEvent_writes d level s
  rw [h]

@[simp] theorem decodeEvent_ovfCount (d : Duration) (level : Bool) (s : State) :
    (decodeEvent d level s).ovfCount = s.ovfCount := by
  obtain ⟨_, _, _, _, _, _, h⟩ := decodeEvent_writes d level s
  rw [h]

@[simp] theorem decodeEvent_edgeSel (d : Duration) (level : Bool) (s : State) :
    (decodeEvent d level s).edgeSel = s.edgeSel := (decodeEvent_keeps_polarity d level s).1

@[simp] theorem decodeEvent_statusOut (d : Duration) (level : Bool) (s : State) :
    (decodeEvent d level s).statusOut = s.statusOut := (decodeEvent_keeps_polarity d level s).2

@[simp] theorem decodeEvent_irIn (d : Duration) (level : Bool) (s : State) :
    (decodeEvent d level s).irIn = s.irIn := by
  obtain ⟨_, _, _, _, _, _, h⟩ := decodeEvent_writes d level s
  rw [h]

@[simp] theorem decodeEvent_cfg (d : Duration) (level : Bool) (s : State) : (decodeEvent d level s).cfg = s.cfg := by
  obtain ⟨_, _, _, _, _, _, h⟩ := decodeEvent_writes d level s
  rw [h]

@[simp] theorem decodeEvent_stream (d : Duration) (level : Bool) (s : State) :
    (decodeEvent d level s).stream = s.stream := by
  obtain ⟨_, _, _, _, _, _, h⟩ := decodeEvent_writes d level s
  rw [h]

/-- What servicing an overflow can do: count it, or nothing (R52). -/
theorem serviceOverflow_cases (s : State) :
    (s.ovfPending = true ∧
      serviceOverflow s = { s with ovfCount := satInc s.cfg.ovfWidth s.ovfCount, ovfPending := false }) ∨
    (s.ovfPending = false ∧ serviceOverflow s = s) := by
  cases h : s.ovfPending <;> simp [serviceOverflow, h]

/-- The capture as one run of the decoder on a rearmed timer (R57). -/
theorem capture_eq (s : State) :
    capture s = decodeEvent (duration s.cfg s.cnt s.ovfCount) s.edgeSel (rearm s) := rfl

theorem countTick_keeps_run (s : State) : (countTick s).stream = s.stream ∧ (countTick s).cfg = s.cfg := by
  obtain ⟨-, h⟩ | ⟨-, h⟩ := countTick_cases s <;> rw [h] <;> exact ⟨rfl, rfl⟩

theorem serviceOverflow_keeps_run (s : State) :
    (serviceOverflow s).stream = s.stream ∧ (serviceOverflow s).cfg = s.cfg := by
  obtain ⟨-, h⟩ | ⟨-, h⟩ := serviceOverflow_cases s <;> rw [h] <;> exact ⟨rfl, rfl⟩

theorem lineLevel_keeps_run (level : Bool) (s : State) :
    (lineLevel level s).stream = s.stream ∧ (lineLevel level s).cfg = s.cfg := by
  obtain ⟨-, h⟩ | ⟨-, -, h⟩ | ⟨-, -, h⟩ := lineLevel_cases level s
  · rw [h]; exact ⟨rfl, rfl⟩
  · rw [h]; exact ⟨rfl, rfl⟩
  · simp [h, capture_eq]

/-- Settles O9: each transaction is an operation on the state that writes neither the stream nor the
configuration. -/
theorem everyTransactionCompletes : Obligations.EveryTransactionCompletes := by
  intro i s
  cases i with
  | tick => exact ⟨_, rfl, countTick_keeps_run s⟩
  | ovfService => exact ⟨_, rfl, serviceOverflow_keeps_run s⟩
  | input level => exact ⟨_, rfl, lineLevel_keeps_run level s⟩
  | reset => exact ⟨_, rfl, rfl, rfl⟩
  | submitEdge d level => exact ⟨_, rfl, decodeEvent_stream d level s, decodeEvent_cfg d level s⟩
  | submitEdgeMillis m level => exact ⟨_, rfl, decodeEvent_stream _ level s, decodeEvent_cfg _ level s⟩
  | registerCallback h => exact ⟨_, rfl, rfl, rfl⟩
  | powerOnReset => exact ⟨_, rfl, rfl, rfl⟩

/-- A word, well-formed or not, answers a next state with the words to come and the configuration kept (R9, R43). -/
theorem transact_completes (w : Word) (s : State) :
    ∃ t, transact w s = .next t ∧ t.stream = s.stream ∧ t.cfg = s.cfg := by
  obtain ⟨i, -, h⟩ | ⟨_, -, h⟩ := transact_cases w s
  · rw [h]; exact everyTransactionCompletes i s
  · exact ⟨_, h, rfl, rfl⟩

end Sys2Proof.Machine
end

section
/-! SUPPORT. The invariant of the machine (10_state.md R13, R24 to R26): it holds at power-on, every operation keeps
it, and so every run does. -/

namespace Sys2Proof.Machine

/-- The invariant speaks of the timer and the decoder alone: the slot, the mark, the log, the line and the model's own
fields are free. -/
theorem State.Inv.frame {s : State} (inv : s.Inv) (pending line : Bool) (handler : Option HandlerId) (refused : Bool)
    (out : List OutEvent) (stream : List Word) (consumer : List (List ConsumerCall)) :
    State.Inv { s with
      ovfPending := pending, irIn := line, handler := handler, refused := refused, out := out, stream := stream,
      consumer := consumer } :=
  ⟨inv.cfg_wf, inv.cnt_lt, inv.ovfCount_lt, inv.status_mirrors, inv.idle_empty, inv.count_below, inv.acc_fits⟩

theorem wordBits_bounds {c : Config} (wf : c.wf) : 1 ≤ c.wordBits ∧ c.wordBits ≤ 16 := by
  obtain ⟨-, -, -, -, -, -, -, -, -, bits⟩ := wf
  exact bits

/-- An empty accumulator agrees with every state of the decoder (R24, R25). -/
theorem State.Inv.emptied {s : State} (inv : s.Inv) (st : DecoderState) :
    State.Inv { s with st := st, acc := 0#16, bitCount := 0 } :=
  ⟨inv.cfg_wf, inv.cnt_lt, inv.ovfCount_lt, inv.status_mirrors, fun _ => ⟨rfl, rfl⟩,
    fun _ => (wordBits_bounds inv.cfg_wf).1, fun _ => Nat.one_pos⟩

/-- Between two states before BitAccumulate, and into it, the accumulator is empty already (R24). -/
theorem State.Inv.advanced {s : State} (inv : s.Inv) (early : s.st ≠ .bitAccumulate) (st : DecoderState) :
    State.Inv { s with st := st } := by
  obtain ⟨acc, bitCount⟩ := inv.idle_empty early
  have same : { s with st := st } = { s with st := st, acc := 0#16, bitCount := 0 } := by rw [← acc, ← bitCount]
  rw [same]
  exact inv.emptied st

theorem bitOf_le_one (c : Config) (d : Duration) : bitOf c d ≤ 1 := by
  unfold bitOf
  split <;> omega

/-- One more bit leaves an accumulator of one more bit (R72). -/
theorem accumulate_acc_lt (d : Duration) (s : State) (fits : s.acc.toNat < 2 ^ s.bitCount) :
    (accumulate d s).acc.toNat < 2 ^ (accumulate d s).bitCount := by
  have bit := bitOf_le_one s.cfg d
  rw [accumulate_acc, accumulate_bitCount, BitVec.toNat_ofNat, Nat.pow_succ]
  exact (Nat.mod_le _ _).trans_lt (by omega)

theorem accumulate_inv {s : State} (inv : s.Inv) (d : Duration) (collecting : s.st = .bitAccumulate)
    (short : s.bitCount + 1 < s.cfg.wordBits) : (accumulate d s).Inv :=
  ⟨inv.cfg_wf, inv.cnt_lt, inv.ovfCount_lt, inv.status_mirrors, fun early => absurd collecting early, fun _ => short,
    fun _ => accumulate_acc_lt d s (inv.acc_fits collecting)⟩

theorem complete_inv {s : State} (inv : s.Inv) (d : Duration) : (complete (accumulate d s)).Inv := by
  rw [complete_eq]
  exact (inv.emptied .preamble).frame _ _ _ _ _ _ _

theorem decodeEvent_inv {s : State} (inv : s.Inv) (d : Duration) (level : Bool) : (decodeEvent d level s).Inv := by
  obtain ⟨early, arc⟩ | ⟨collecting, h⟩ := decodeEvent_cases d level s
  · obtain ⟨-, h⟩ | ⟨-, h⟩ | ⟨-, h⟩ | ⟨-, h⟩ | h := arc <;> rw [h]
    case inr.inr.inr.inr => exact inv.emptied _
    all_goals exact inv.advanced early _
  · rw [h]
    obtain ⟨-, arc⟩ | ⟨short, arc⟩ | ⟨-, arc⟩ := arcBit_cases d s <;> rw [arc]
    · exact inv.emptied .preamble
    · exact accumulate_inv inv d collecting short
    · exact complete_inv inv d

theorem countTick_inv {s : State} (inv : s.Inv) : (countTick s).Inv := by
  have fits := inv.cnt_lt
  have period : 0 < 2 ^ s.cfg.timerWidth := Nat.two_pow_pos _
  obtain ⟨-, h⟩ | ⟨notLast, h⟩ := countTick_cases s <;> rw [h]
  · exact ⟨inv.cfg_wf, period, inv.ovfCount_lt, inv.status_mirrors, inv.idle_empty, inv.count_below, inv.acc_fits⟩
  · have counted : s.cnt + 1 < 2 ^ s.cfg.timerWidth := by omega
    exact ⟨inv.cfg_wf, counted, inv.ovfCount_lt, inv.status_mirrors, inv.idle_empty, inv.count_below, inv.acc_fits⟩

/-- The saturating increment fits its width (R10). -/
theorem satInc_lt (n v : Nat) : satInc n v < 2 ^ n :=
  (Nat.min_le_right _ _).trans_lt (Nat.sub_lt (Nat.two_pow_pos n) Nat.one_pos)

theorem serviceOverflow_inv {s : State} (inv : s.Inv) : (serviceOverflow s).Inv := by
  obtain ⟨-, h⟩ | ⟨-, h⟩ := serviceOverflow_cases s <;> rw [h]
  · exact ⟨inv.cfg_wf, inv.cnt_lt, satInc_lt _ _, inv.status_mirrors, inv.idle_empty, inv.count_below, inv.acc_fits⟩
  · exact inv

theorem rearm_inv {s : State} (inv : s.Inv) : (rearm s).Inv :=
  ⟨inv.cfg_wf, Nat.two_pow_pos _, Nat.two_pow_pos _, rfl, inv.idle_empty, inv.count_below, inv.acc_fits⟩

theorem lineLevel_inv {s : State} (inv : s.Inv) (level : Bool) : (lineLevel level s).Inv := by
  have recorded : State.Inv { s with irIn := level } := inv.frame _ _ _ _ _ _ _
  obtain ⟨-, h⟩ | ⟨-, -, h⟩ | ⟨-, -, h⟩ := lineLevel_cases level s <;> rw [h]
  · exact inv
  · exact recorded
  · exact decodeEvent_inv (rearm_inv recorded) _ _

/-- The elements that power-on writes meet the invariant under every admissible configuration (R92, R107). -/
theorem inv_of_powerOn_values {s : State} (wf : s.cfg.wf) (cnt : s.cnt = 0) (ovfCount : s.ovfCount = 0)
    (status : s.statusOut = s.edgeSel) (st : s.st = .preamble) (acc : s.acc = 0#16) (bitCount : s.bitCount = 0) :
    s.Inv := by
  have early : s.st ≠ .bitAccumulate := by rw [st]; decide
  exact ⟨wf, by rw [cnt]; exact Nat.two_pow_pos _, by rw [ovfCount]; exact Nat.two_pow_pos _, status,
    fun _ => ⟨acc, bitCount⟩, fun collecting => absurd collecting early, fun collecting => absurd collecting early⟩

theorem exec_inv {s t : State} (inv : s.Inv) (i : Instr) (ran : exec i s = .next t) : t.Inv := by
  cases i with
  | tick => cases ran; exact countTick_inv inv
  | ovfService => cases ran; exact serviceOverflow_inv inv
  | input level => cases ran; exact lineLevel_inv inv level
  | reset => cases ran; exact inv.emptied .preamble
  | submitEdge d level => cases ran; exact decodeEvent_inv inv d level
  | submitEdgeMillis m level => cases ran; exact decodeEvent_inv inv _ level
  | registerCallback h => cases ran; exact inv.frame _ _ _ _ _ _ _
  | powerOnReset => cases ran; exact inv_of_powerOn_values inv.cfg_wf rfl rfl rfl rfl rfl rfl

theorem transact_inv {s t : State} (inv : s.Inv) (w : Word) (ran : transact w s = .next t) : t.Inv := by
  obtain ⟨i, -, h⟩ | ⟨_, -, h⟩ := transact_cases w s <;> rw [h] at ran
  · exact exec_inv inv i ran
  · cases ran
    exact inv.frame _ _ _ _ _ _ _

/-- Settles O46: each operation keeps the invariant, whatever the word that asks for it. -/
theorem everyStepKeepsTheInvariant : Obligations.EveryStepKeepsTheInvariant := by
  intro s t inv ran
  obtain ⟨-, h⟩ | ⟨w, rest, -, h⟩ := step_cases s <;> rw [h] at ran
  · cases ran
  · exact transact_inv (inv.frame _ _ _ _ _ _ _) w ran

end Sys2Proof.Machine
end

section
/-! SUPPORT. What the operations do not read: the decoder neither the timer, the line nor the words to come
(41_protocol_decoder.md R63, R64), no transaction the words to come. -/

namespace Sys2Proof.Machine

/-! ## The cases of the shared operations, as equations -/

/-- The overrun guard (R76). -/
theorem arcBit_of_full (d : Duration) (s : State) (full : s.cfg.wordBits ≤ s.bitCount) : arcBit d s = fullReset s := by
  obtain ⟨-, h⟩ | ⟨short, -⟩ | ⟨last, -⟩ := arcBit_cases d s
  · exact h
  · omega
  · omega

/-- A bit before the last (R72). -/
theorem arcBit_of_short (d : Duration) (s : State) (short : s.bitCount + 1 < s.cfg.wordBits) :
    arcBit d s = accumulate d s := by
  obtain ⟨full, -⟩ | ⟨-, h⟩ | ⟨last, -⟩ := arcBit_cases d s
  · omega
  · exact h
  · omega

/-- The last bit (R75). -/
theorem arcBit_of_last (d : Duration) (s : State) (last : s.bitCount + 1 = s.cfg.wordBits) :
    arcBit d s = complete (accumulate d s) := by
  obtain ⟨full, -⟩ | ⟨short, -⟩ | ⟨-, h⟩ := arcBit_cases d s
  · omega
  · omega
  · exact h

theorem decodeEvent_of_collecting (d : Duration) (level : Bool) (s : State) (collecting : s.st = .bitAccumulate) :
    decodeEvent d level s = arcBit d s := by
  obtain ⟨early, -⟩ | ⟨-, h⟩ := decodeEvent_cases d level s
  · exact absurd collecting early
  · exact h

/-- A repeated level is no edge (R55). -/
theorem lineLevel_of_same (level : Bool) (s : State) (same : level = s.irIn) : lineLevel level s = s := by
  obtain ⟨-, h⟩ | ⟨other, -⟩ | ⟨other, -⟩ := lineLevel_cases level s
  · exact h
  · exact absurd same other
  · exact absurd same other

/-- An unselected transition is only recorded (R55). -/
theorem lineLevel_of_unselected (level : Bool) (s : State) (transition : level ≠ s.irIn)
    (unselected : level ≠ s.edgeSel) : lineLevel level s = { s with irIn := level } := by
  obtain ⟨same, -⟩ | ⟨-, -, h⟩ | ⟨-, selected, -⟩ := lineLevel_cases level s
  · exact absurd same transition
  · exact h
  · exact absurd selected unselected

/-! ## The decoder -/

/-- `s` with the timer, the polarity, the pin, the line and the words to come of `u`: the elements the decoder does
not touch. -/
def withTimerOf (u s : State) : State :=
  { s with
    cnt := u.cnt, ovfPending := u.ovfPending, ovfCount := u.ovfCount, edgeSel := u.edgeSel, statusOut := u.statusOut,
    irIn := u.irIn, stream := u.stream }

theorem validate_withTimerOf (accepted : Bool) (successor : DecoderState) (level : Bool) (u s : State) :
    validate accepted successor level (withTimerOf u s) = withTimerOf u (validate accepted successor level s) := by
  cases accepted <;> rfl

theorem complete_withTimerOf (u s : State) : complete (withTimerOf u s) = withTimerOf u (complete s) := by
  rw [complete_eq, complete_eq]
  rfl

theorem arcBit_withTimerOf (d : Duration) (u s : State) :
    arcBit d (withTimerOf u s) = withTimerOf u (arcBit d s) := by
  obtain ⟨full, h⟩ | ⟨short, h⟩ | ⟨last, h⟩ := arcBit_cases d s <;> rw [h]
  · exact arcBit_of_full d (withTimerOf u s) full
  · exact arcBit_of_short d (withTimerOf u s) short
  · rw [← complete_withTimerOf]
    exact arcBit_of_last d (withTimerOf u s) last

/-- The decoder neither reads nor writes the elements of the timer: it runs the same whatever they are. -/
theorem decodeEvent_withTimerOf (d : Duration) (level : Bool) (u s : State) :
    decodeEvent d level (withTimerOf u s) = withTimerOf u (decodeEvent d level s) := by
  have same : (withTimerOf u s).st = s.st := rfl
  unfold decodeEvent
  rw [same]
  cases s.st
  case bitAccumulate => exact arcBit_withTimerOf d u s
  all_goals exact validate_withTimerOf _ _ level u s

/-- The decoder's run on a state whose timer was changed, as the same run with the change kept. -/
theorem decodeEvent_with_timer (d : Duration) (level : Bool) (s : State) (cnt : Nat) (pending : Bool) (count : Nat)
    (sel status line : Bool) :
    decodeEvent d level
        { s with
          cnt := cnt, ovfPending := pending, ovfCount := count, edgeSel := sel, statusOut := status, irIn := line } =
      { decodeEvent d level s with
        cnt := cnt, ovfPending := pending, ovfCount := count, edgeSel := sel, statusOut := status, irIn := line } := by
  have blind := decodeEvent_withTimerOf d level
    { s with cnt := cnt, ovfPending := pending, ovfCount := count, edgeSel := sel, statusOut := status, irIn := line } s
  refine blind.trans ?_
  rw [withTimerOf, ← decodeEvent_stream d level s]

/-! ## The words to come -/

theorem decodeEvent_with_stream (d : Duration) (level : Bool) (s : State) (stream : List Word) :
    decodeEvent d level { s with stream := stream } = { decodeEvent d level s with stream := stream } := by
  refine (decodeEvent_withTimerOf d level { s with stream := stream } s).trans ?_
  simp only [withTimerOf, ← decodeEvent_cnt d level s, ← decodeEvent_ovfPending d level s,
    ← decodeEvent_ovfCount d level s, ← decodeEvent_edgeSel d level s, ← decodeEvent_statusOut d level s,
    ← decodeEvent_irIn d level s]

theorem countTick_with_stream (s : State) (stream : List Word) :
    countTick { s with stream := stream } = { countTick s with stream := stream } := by
  have same : atLastCount { s with stream := stream } = atLastCount s := rfl
  rw [countTick, countTick, same]
  cases atLastCount s <;> rfl

theorem serviceOverflow_with_stream (s : State) (stream : List Word) :
    serviceOverflow { s with stream := stream } = { serviceOverflow s with stream := stream } := by
  rw [serviceOverflow, serviceOverflow]
  split <;> rfl

theorem lineLevel_with_stream (level : Bool) (s : State) (stream : List Word) :
    lineLevel level { s with stream := stream } = { lineLevel level s with stream := stream } := by
  obtain ⟨same, h⟩ | ⟨transition, unselected, h⟩ | ⟨transition, selected, h⟩ := lineLevel_cases level s <;> rw [h]
  · exact lineLevel_of_same level { s with stream := stream } same
  · exact lineLevel_of_unselected level { s with stream := stream } transition unselected
  · exact (lineLevel_of_selected level { s with stream := stream } transition selected).trans
      (decodeEvent_with_stream _ _ (rearm { s with irIn := level }) stream)

/-- No transaction reads or writes the words to come (log entry 1). -/
theorem exec_with_stream (i : Instr) (s t : State) (stream : List Word) (ran : exec i s = .next t) :
    exec i { s with stream := stream } = .next { t with stream := stream } := by
  cases i with
  | tick => cases ran; exact congrArg _ (countTick_with_stream s stream)
  | ovfService => cases ran; exact congrArg _ (serviceOverflow_with_stream s stream)
  | input level => cases ran; exact congrArg _ (lineLevel_with_stream level s stream)
  | reset => cases ran; rfl
  | submitEdge d level => cases ran; exact congrArg _ (decodeEvent_with_stream d level s stream)
  | submitEdgeMillis m level => cases ran; exact congrArg _ (decodeEvent_with_stream _ level s stream)
  | registerCallback h => cases ran; rfl
  | powerOnReset => cases ran; rfl

theorem transact_with_stream (w : Word) (s t : State) (stream : List Word) (ran : transact w s = .next t) :
    transact w { s with stream := stream } = .next { t with stream := stream } := by
  unfold transact at ran ⊢
  cases decoded : decode w with
  | ok i =>
    rw [decoded] at ran
    exact exec_with_stream i s t stream ran
  | error e =>
    rw [decoded] at ran
    cases ran
    rfl

end Sys2Proof.Machine
end

section
/-! SUPPORT. Steps and runs (20_memory.md R33, R34; 70_reset_and_hazards.md R122): what the next word does, and what
carries over from one step to a run. -/

namespace Sys2Proof.Machine

/-! ## One step -/

theorem step_of_nil (s : State) (ended : s.stream = []) : step s = .refused .endOfRun := by
  obtain ⟨-, h⟩ | ⟨w, rest, more, -⟩ := step_cases s
  · exact h
  · cases ended.symm.trans more

theorem step_of_cons (s : State) (w : Word) (later : List Word) (more : s.stream = w :: later) :
    step s = transact w { s with stream := later } := by
  obtain ⟨ended, -⟩ | ⟨v, rest, more', h⟩ := step_cases s
  · cases ended.symm.trans more
  · cases more.symm.trans more'
    exact h

theorem transact_of_decode (w : Word) (i : Instr) (s : State) (decoded : decode w = .ok i) :
    transact w s = exec i s := by
  rw [transact, decoded]

theorem transact_of_illFormed (w : Word) (s : State) (illFormed : wellFormedWord w = false) :
    transact w s = .next (refuse s) := by
  rw [transact, decode_of_illFormed w illFormed]

/-- Settles O7: the next word is transacted, and a decoded word is executed. -/
theorem stepRunsTheDecodedInstruction : Obligations.StepRunsTheDecodedInstruction := by
  intro s w later i more decoded
  rw [step_of_cons s w later more, transact_of_decode w i _ decoded]

/-- Settles O8: the word offered is the encoding itself, which decodes back. -/
theorem offeredInstructionRunsNext : Obligations.OfferedInstructionRunsNext := by
  intro s i
  have word : BitVec.ofNat 32 ((encode i).toNat % 2 ^ 32) = encode i := by
    rw [Nat.mod_eq_of_lt (encode i).isLt, BitVec.ofNat_toNat, BitVec.setWidth_eq]
  rw [step_of_cons (s.withFetchWord 32 (encode i).toNat) (encode i) s.stream (congrArg (· :: s.stream) word),
    transact_of_decode _ i _ (decode_encode i)]
  rfl

theorem illFormed_of_reason (w : Word)
    (reason : opField w = 0#4 ∨ 9#4 ≤ opField w ∨ w &&& reservedBits (opField w) ≠ 0#32) :
    wellFormedWord w = false := by
  have reservedOp : ∀ op : BitVec 4, op = 0#4 ∨ 9#4 ≤ op → legalOp op = false := by decide
  rw [wellFormedWord]
  obtain reserved | bits := or_assoc.2 reason
  · rw [reservedOp _ reserved, Bool.false_and]
  · rw [beq_eq_false_iff_ne.2 bits, Bool.and_false]

/-- Settles O6: each reason of R43 makes the word ill-formed, and such a word is refused. -/
theorem illFormedWordOnlySetsTheMark : Obligations.IllFormedWordOnlySetsTheMark := by
  intro s w later more reason
  rw [step_of_cons s w later more, transact_of_illFormed w _ (illFormed_of_reason w reason)]
  rfl

/-! ## Runs -/

/-- The step of a run that has a word left answers a next state without that word. -/
theorem step_completes (s : State) (w : Word) (later : List Word) (more : s.stream = w :: later) :
    ∃ t, step s = .next t ∧ t.stream = later := by
  obtain ⟨t, ran, stream, -⟩ := transact_completes w { s with stream := later }
  exact ⟨t, (step_of_cons s w later more).trans ran, stream⟩

theorem runSteps_stream_length (words : List Word) (s : State) (whole : s.stream = words) :
    ∃ t, runSteps words.length s = .next t ∧ t.stream = [] := by
  induction words generalizing s with
  | nil => exact ⟨s, rfl, whole⟩
  | cons w later ih =>
    obtain ⟨t, stepped, rest⟩ := step_completes s w later whole
    rw [List.length_cons, runSteps_succ _ s t stepped]
    exact ih t rest

/-- Settles O10: every step of a run uses up one word. -/
theorem runEndsAfterItsLastWord : Obligations.RunEndsAfterItsLastWord :=
  ⟨step_of_nil, fun s => runSteps_stream_length s.stream s rfl⟩

/-- Settles O11, by induction on the first words: a word does the same whatever follows it. -/
theorem runsCompose : Obligations.RunsCompose := by
  intro s first second
  induction first generalizing s with
  | nil => exact ⟨{ s with stream := [] }, rfl, rfl⟩
  | cons w later ih =>
    obtain ⟨u, ran, -⟩ := transact_completes w s
    obtain ⟨t, ended, composed⟩ := ih u
    have stepped (rest : List Word) : step { s with stream := w :: rest } = .next { u with stream := rest } :=
      (step_of_cons { s with stream := w :: rest } w rest rfl).trans (transact_with_stream w s u rest ran)
    refine ⟨t, ?_, ?_⟩
    · rw [List.length_cons, runSteps_succ _ _ _ (stepped later)]
      exact ended
    · rw [List.cons_append, List.length_cons, runSteps_succ _ _ _ (stepped (later ++ second))]
      exact composed

/-- What every step keeps, every run keeps. -/
theorem runSteps_induction {P : State → Prop} (kept : ∀ s t, P s → step s = .next t → P t) (n : Nat) (s t : State)
    (start : P s) (ran : runSteps n s = .next t) : P t := by
  induction n generalizing s with
  | zero => cases ran; exact start
  | succ n ih =>
    unfold runSteps at ran
    cases stepped : step s with
    | next u =>
      rw [stepped] at ran
      exact ih u (kept s u start stepped) ran
    | fault r => cases r
    | refused r =>
      rw [stepped] at ran
      cases ran

theorem start_inv (c : Config) (words : List Word) (consumer : List (List ConsumerCall)) (wf : c.wf) :
    (State.start c words consumer).Inv :=
  inv_of_powerOn_values wf rfl rfl rfl rfl rfl rfl

theorem step_keeps_cfg (s t : State) (ran : step s = .next t) : t.cfg = s.cfg := by
  obtain ⟨-, h⟩ | ⟨w, later, -, h⟩ := step_cases s <;> rw [h] at ran
  · cases ran
  · obtain ⟨u, ran', -, cfg⟩ := transact_completes w { s with stream := later }
    cases ran'.symm.trans ran
    exact cfg

/-- Settles O47: the invariant holds at the start of the run and along it, and the configuration stays. -/
theorem reachableStatesAgreeWithTheirPhase : Obligations.ReachableStatesAgreeWithTheirPhase := by
  intro c words consumer n t wf bits ran
  obtain ⟨inv, cfg⟩ : t.Inv ∧ t.cfg = c :=
    runSteps_induction (P := fun u => u.Inv ∧ u.cfg = c)
      (fun u v kept stepped =>
        ⟨everyStepKeepsTheInvariant u v kept.1 stepped, (step_keeps_cfg u v stepped).trans kept.2⟩)
      n _ t ⟨start_inv c words consumer wf, rfl⟩ ran
  refine ⟨inv.idle_empty, fun collecting => ⟨?_, inv.acc_fits collecting⟩, inv.status_mirrors⟩
  have below := inv.count_below collecting
  rw [cfg, bits] at below
  omega

/-! ## The configuration and the state after reset -/

/-- The defaults meet R7 under every admissible choice of the OPEN rows. -/
theorem atDefaults_wf (width num den : Nat) (sel line : Bool) (widthPos : 1 ≤ width) (numPos : 1 ≤ num)
    (denPos : 1 ≤ den) : (Config.atDefaults width num den sel line).wf := by
  dsimp only [Config.wf, Config.atDefaults]
  exact ⟨widthPos, numPos, denPos, by decide⟩

theorem hardware_wf : Config.hardware.wf :=
  atDefaults_wf _ _ _ _ _ (Nat.le_add_left 1 _) (Nat.le_add_left 1 _) (Nat.le_add_left 1 _)

/-- Settles O45: the power-on values meet the invariant, and the reset configuration R7. -/
theorem invariantHoldsAtPowerOn : Obligations.InvariantHoldsAtPowerOn :=
  ⟨inv_of_powerOn_values hardware_wf rfl rfl rfl rfl rfl rfl, start_inv⟩

/-- Settles O40: the reset state is power-on at the reset configuration. -/
theorem resetStateHoldsThePowerOnValues : Obligations.ResetStateHoldsThePowerOnValues :=
  ⟨rfl, rfl, rfl, rfl, rfl, rfl, rfl, rfl, rfl, rfl, rfl, rfl, rfl, rfl⟩

/-- Settles O41: a configuration at the defaults is one of `atDefaults`, whose rows are the table's. -/
theorem resetConfigurationIsAdmissible : Obligations.ResetConfigurationIsAdmissible := by
  refine ⟨rfl, hardware_wf, fun c defaults => ?_⟩
  rw [defaults]
  exact ⟨rfl, rfl, rfl, rfl, rfl, rfl, rfl, rfl, rfl, rfl, rfl, rfl, rfl, rfl, rfl⟩

end Sys2Proof.Machine
end

section
/-! SUPPORT. The output log and the mark of a refusal (10_state.md R28, R29): a transaction either leaves both alone or
completes one word, which appends one event and marks the calls of its callback. -/

namespace Sys2Proof.Machine

/-- A step from `s` to `t` that completed a word: the decoder is back at its start, the log has one event more, and
the mark tells whether the callback called into the block (R75, R89, R90). -/
structure DeliversWord (s t : State) : Prop where
  collecting : s.st = .bitAccumulate
  last : s.bitCount + 1 = s.cfg.wordBits
  st : t.st = .preamble
  acc : t.acc = 0#16
  bitCount : t.bitCount = 0
  out : ∃ word, t.out = s.out ++ [⟨s.handler, word, s.cfg.repeatCount⟩]
  refused : t.refused = (s.refused || (s.handler.isSome && !(s.consumer.headD []).isEmpty))

/-- A step from `s` to `t` that shows nothing at the outputs. -/
structure Silent (s t : State) : Prop where
  out : t.out = s.out
  refused : t.refused = s.refused

theorem decodeEvent_silent_or_delivers (d : Duration) (level : Bool) (s : State) :
    Silent s (decodeEvent d level s) ∨ DeliversWord s (decodeEvent d level s) := by
  by_cases finished : s.st = .bitAccumulate ∧ s.bitCount + 1 = s.cfg.wordBits
  · obtain ⟨collecting, last⟩ := finished
    rw [decodeEvent_of_lastBit d level s collecting last, complete_eq]
    exact .inr ⟨collecting, last, rfl, rfl, rfl, ⟨_, rfl⟩, rfl⟩
  · obtain ⟨_, _, _, h⟩ := decodeEvent_of_unfinished d level s finished
    rw [h]
    exact .inl ⟨rfl, rfl⟩

theorem lineLevel_silent_or_delivers (level : Bool) (s : State) :
    Silent s (lineLevel level s) ∨ DeliversWord s (lineLevel level s) := by
  obtain ⟨-, h⟩ | ⟨-, -, h⟩ | ⟨-, -, h⟩ := lineLevel_cases level s <;> rw [h]
  · exact .inl ⟨rfl, rfl⟩
  · exact .inl ⟨rfl, rfl⟩
  · obtain quiet | word := decodeEvent_silent_or_delivers (duration s.cfg s.cnt s.ovfCount) s.edgeSel
      (rearm { s with irIn := level })
    · exact .inl ⟨quiet.out, quiet.refused⟩
    · exact .inr ⟨word.collecting, word.last, word.st, word.acc, word.bitCount, word.out, word.refused⟩

/-- All a transaction can show: nothing, or one completed word (R28, R29, R101). -/
theorem exec_silent_or_delivers (i : Instr) (s t : State) (ran : exec i s = .next t) :
    Silent s t ∨ DeliversWord s t := by
  cases i with
  | tick =>
    cases ran
    obtain ⟨-, h⟩ | ⟨-, h⟩ := countTick_cases s <;> rw [h] <;> exact .inl ⟨rfl, rfl⟩
  | ovfService =>
    cases ran
    obtain ⟨-, h⟩ | ⟨-, h⟩ := serviceOverflow_cases s <;> rw [h] <;> exact .inl ⟨rfl, rfl⟩
  | input level => cases ran; exact lineLevel_silent_or_delivers level s
  | reset => cases ran; exact .inl ⟨rfl, rfl⟩
  | submitEdge d level => cases ran; exact decodeEvent_silent_or_delivers d level s
  | submitEdgeMillis m level => cases ran; exact decodeEvent_silent_or_delivers _ level s
  | registerCallback h => cases ran; exact .inl ⟨rfl, rfl⟩
  | powerOnReset => cases ran; exact .inl ⟨rfl, rfl⟩

/-- Settles O43: an accepted word shows nothing or delivers, a refused one shows only the mark. -/
theorem logGrowsByOneCompletedWord : Obligations.LogGrowsByOneCompletedWord := by
  intro s t ran
  obtain ⟨-, h⟩ | ⟨w, later, -, h⟩ := step_cases s <;> rw [h] at ran
  · cases ran
  · obtain ⟨i, -, h⟩ | ⟨_, -, h⟩ := transact_cases w { s with stream := later } <;> rw [h] at ran
    · obtain quiet | word := exec_silent_or_delivers i _ t ran
      · exact .inl quiet.out
      · exact .inr ⟨word.collecting, word.last, word.st, word.acc, word.bitCount, word.out⟩
    · cases ran
      exact .inl rfl

/-- The mark after an accepted transaction: it was there, or a word went to a consumer that called back (R90). -/
theorem exec_refused_iff (i : Instr) (s t : State) (ran : exec i s = .next t) :
    t.refused = true ↔ s.refused = true ∨ (t.out ≠ s.out ∧ s.handler ≠ none ∧ s.consumer.headD [] ≠ []) := by
  obtain quiet | word := exec_silent_or_delivers i s t ran
  · simp [quiet.out, quiet.refused]
  · obtain ⟨_, out⟩ := word.out
    simp [word.refused, out, Option.isSome_iff_ne_none]

/-- Settles O44: an ill-formed word sets the mark, a well-formed one is a transaction. -/
theorem markIsStickyAndHasTwoCauses : Obligations.MarkIsStickyAndHasTwoCauses := by
  intro s t w later more ran
  rw [step_of_cons s w later more] at ran
  cases wf : wellFormedWord w with
  | true =>
    obtain ⟨i, -, decoded⟩ := decode_of_wellFormed w wf
    rw [transact_of_decode w _ _ decoded] at ran
    simpa using exec_refused_iff _ _ t ran
  | false =>
    rw [transact_of_illFormed w _ wf] at ran
    cases ran
    simp

end Sys2Proof.Machine
end

section
/-! SUPPORT. The decoder's arcs before BitAccumulate (41_protocol_decoder.md R67 to R70, R73), said once: what each
state accepts, where it leads, and what a failure does. -/

namespace Sys2Proof.Machine

/-- The window of a state before BitAccumulate accepts a duration (R67 to R70). -/
def accepts (c : Config) (d : Duration) : DecoderState → Prop
  | .preamble => c.preambleMin < d
  | .syncHigh => c.syncHigh.lo < d ∧ d < c.syncHigh.hi
  | .syncLow => c.syncLow.lo < d ∧ d < c.syncLow.hi
  | .headerHigh => c.headerHigh.lo < d ∧ d < c.headerHigh.hi
  | .bitAccumulate => False

/-- Where an accepted duration leads (R67 to R70). -/
def successor : DecoderState → DecoderState
  | .preamble => .syncHigh
  | .syncHigh => .syncLow
  | .syncLow => .headerHigh
  | .headerHigh => .bitAccumulate
  | .bitAccumulate => .bitAccumulate

theorem inOpen_iff (d : Duration) (w : Window) : inOpen d w = true ↔ w.lo < d ∧ d < w.hi := by
  simp [inOpen]

theorem above_iff (d lo : Duration) : above d lo = true ↔ lo < d := decide_eq_true_iff

theorem validate_of_accepted (successor : DecoderState) (level : Bool) (s : State) {accepted : Bool}
    (h : accepted = true) : validate accepted successor level s = { s with st := successor } := by
  rw [h]; rfl

theorem validate_of_rejected (successor : DecoderState) (level : Bool) (s : State) {accepted : Bool}
    (h : ¬ accepted = true) : validate accepted successor level s = resync level s :=
  if_neg h

/-- An accepted pulse advances the decoder and writes nothing else (R67 to R70). -/
theorem decodeEvent_of_accepts (d : Duration) (level : Bool) (s : State) {st : DecoderState} (now : s.st = st)
    (accepted : accepts s.cfg d st) : decodeEvent d level s = { s with st := successor st } := by
  rw [decodeEvent, now]
  cases st with
  | preamble => exact validate_of_accepted _ level s ((above_iff _ _).2 accepted)
  | syncHigh => exact validate_of_accepted _ level s ((inOpen_iff _ _).2 accepted)
  | syncLow => exact validate_of_accepted _ level s ((inOpen_iff _ _).2 accepted)
  | headerHigh => exact validate_of_accepted _ level s ((inOpen_iff _ _).2 accepted)
  | bitAccumulate => exact accepted.elim

/-- A failed pulse resyncs (R73). -/
theorem decodeEvent_of_rejects (d : Duration) (level : Bool) (s : State) {st : DecoderState} (now : s.st = st)
    (early : st ≠ .bitAccumulate) (rejected : ¬ accepts s.cfg d st) : decodeEvent d level s = resync level s := by
  rw [decodeEvent, now]
  cases st with
  | preamble => exact validate_of_rejected _ level s (mt (above_iff _ _).1 rejected)
  | syncHigh => exact validate_of_rejected _ level s (mt (inOpen_iff _ _).1 rejected)
  | syncLow => exact validate_of_rejected _ level s (mt (inOpen_iff _ _).1 rejected)
  | headerHigh => exact validate_of_rejected _ level s (mt (inOpen_iff _ _).1 rejected)
  | bitAccumulate => exact absurd rfl early

end Sys2Proof.Machine
end

section
/-! SUPPORT. The edge timer (40_edge_timer.md): ticks, the conversion of an interval, the capture, and the race of an
overflow with it. -/

namespace Sys2Proof.Machine

/-! ## The clock and the overflow handler -/

theorem countTick_of_last (s : State) (last : s.cnt = 2 ^ s.cfg.timerWidth - 1) :
    countTick s = { s with cnt := 0, ovfPending := true } := by
  obtain ⟨-, h⟩ | ⟨notLast, -⟩ := countTick_cases s
  · exact h
  · exact absurd last notLast

theorem countTick_of_not_last (s : State) (notLast : s.cnt ≠ 2 ^ s.cfg.timerWidth - 1) :
    countTick s = { s with cnt := s.cnt + 1 } := by
  obtain ⟨last, -⟩ | ⟨-, h⟩ := countTick_cases s
  · exact absurd last notLast
  · exact h

theorem serviceOverflow_of_pending (s : State) (pending : s.ovfPending = true) :
    serviceOverflow s = { s with ovfCount := satInc s.cfg.ovfWidth s.ovfCount, ovfPending := false } :=
  if_pos pending

theorem serviceOverflow_of_idle (s : State) (idle : s.ovfPending = false) : serviceOverflow s = s :=
  if_neg (Bool.eq_false_iff.1 idle)

/-- Settles O12: the two cases of a tick. -/
theorem tickCountsAndFlagsTheWrap : Obligations.TickCountsAndFlagsTheWrap :=
  ⟨decode_encode .tick, fun s =>
    ⟨fun last => congrArg _ (countTick_of_last s last), fun notLast => congrArg _ (countTick_of_not_last s notLast)⟩⟩

/-- Settles O13: the two cases of the handler, `satInc` being R10's saturating increment. -/
theorem ovfServiceCountsThePendingOverflow : Obligations.OvfServiceCountsThePendingOverflow :=
  ⟨decode_encode .ovfService, fun s =>
    ⟨fun pending => congrArg _ (serviceOverflow_of_pending s pending),
      fun idle => congrArg _ (serviceOverflow_of_idle s idle)⟩⟩

theorem runInstrs_expandTicks_succ (n : Nat) (s : State) :
    runInstrs (expandTicks (n + 1)) s = runInstrs (expandTicks n) (countTick s) := rfl

/-- Settles O14, by induction on the number of ticks: a wrap takes the period from the count and leaves the flag set
whatever follows. -/
theorem ticksAdvanceTheCounterModulo : Obligations.TicksAdvanceTheCounterModulo := by
  intro n
  induction n with
  | zero =>
    intro s fits
    simp [expandTicks, runInstrs, Nat.mod_eq_of_lt fits, Nat.not_le.2 fits]
  | succ n ih =>
    intro s fits
    rw [runInstrs_expandTicks_succ]
    obtain ⟨last, h⟩ | ⟨notLast, h⟩ := countTick_cases s <;> rw [h]
    · have wraps : s.cnt + (n + 1) = 2 ^ s.cfg.timerWidth + n := by omega
      rw [ih _ (Nat.two_pow_pos s.cfg.timerWidth)]
      simp [wraps]
    · have counted : s.cnt + 1 < 2 ^ s.cfg.timerWidth := by omega
      rw [ih _ counted, Nat.add_right_comm, Nat.add_assoc]

/-! ## The interval -/

theorem conv_toNat (c : Config) (t : Nat) : (conv c t).toNat = min (t * c.tickNum / c.tickDen) c.satMax.toNat := by
  have fits : min (t * c.tickNum / c.tickDen) c.satMax.toNat < 2 ^ 16 := (Nat.min_le_right _ _).trans_lt c.satMax.isLt
  rw [conv, BitVec.toNat_ofNat, Nat.mod_eq_of_lt fits]

/-- Settles O15: `SAT_MAX` has 16 bits, and so has what it clamps. -/
theorem conversionIsExactThenSaturates : Obligations.ConversionIsExactThenSaturates := conv_toNat

theorem duration_of_two_le (c : Config) (ticks ovf : Nat) (many : 2 ≤ ovf) : duration c ticks ovf = c.satMax :=
  if_pos many

theorem duration_of_zero (c : Config) (ticks : Nat) : duration c ticks 0 = conv c ticks := rfl

/-- Settles O16: the three branches of `duration`, told apart by the count and then by the mode. -/
theorem durationFollowsTheOverflowCount : Obligations.DurationFollowsTheOverflowCount := by
  refine ⟨rfl, rfl, fun c ticks ovf => ⟨duration_of_two_le c ticks ovf, fun one added => ?_, fun few plain => ?_⟩⟩
  · rw [duration, if_neg (by omega), if_pos ⟨one, added⟩, period]
  · have notAdded : ¬ (ovf = 1 ∧ c.oneOvfMode = .addPeriod) := by
      rintro ⟨one, added⟩
      obtain zero | ticksOnly := plain
      · omega
      · cases ticksOnly.symm.trans added
    rw [duration, if_neg (by omega), if_neg notAdded]

/-! ## The capture -/

/-- `s` after a capture of the interval `d`: the decoder ran on it, and the timer, the polarity and the line stand at
their new values, with `count` overflows counted and the flag at `pending` (R57). -/
def captured (d : Duration) (count : Nat) (pending level : Bool) (s : State) : State :=
  { decodeEvent d s.edgeSel s with
    irIn := level, cnt := 0, ovfCount := count, ovfPending := pending, edgeSel := !s.edgeSel, statusOut := !s.edgeSel }

/-- A selected transition is captured on the values the timer held before it was rearmed (R55, R57, R60). -/
theorem lineLevel_capture (level : Bool) (s : State) (transition : level ≠ s.irIn) (selected : level = s.edgeSel) :
    lineLevel level s = captured (duration s.cfg s.cnt s.ovfCount) 0 (pendingAfterCapture s) level s :=
  (lineLevel_of_selected level s transition selected).trans (decodeEvent_with_timer _ _ s _ _ _ _ _ _)

theorem pendingAfterCapture_eq_ite (s : State) :
    pendingAfterCapture s = if s.cfg.captureClearsOvfPending then false else s.ovfPending := by
  cases clears : s.cfg.captureClearsOvfPending <;> simp [pendingAfterCapture, clears]

/-- Settles O17: the three cases of a level on the line. -/
theorem inputCapturesSelectedTransitions : Obligations.InputCapturesSelectedTransitions := by
  refine ⟨fun level => decode_encode (.input level), fun s level => ⟨fun same => ?_, fun transition unselected => ?_,
    fun transition selected => ?_⟩⟩
  · exact congrArg _ (lineLevel_of_same level s same)
  · exact congrArg _ (lineLevel_of_unselected level s transition unselected)
  · rw [← pendingAfterCapture_eq_ite]
    exact congrArg _ (lineLevel_of_selected level s transition selected)

/-- Settles O18: the timer after a capture is the rearmed one, and an injected event runs the decoder alone. -/
theorem captureRestartsTheInterval : Obligations.CaptureRestartsTheInterval := by
  refine ⟨fun s level transition selected => ?_, fun s d level => ⟨_, rfl, decodeEvent_ovfCount d level s⟩,
    fun s m level => ⟨_, rfl, decodeEvent_ovfCount _ level s⟩⟩
  refine ⟨_, rfl, ?_⟩
  rw [lineLevel_capture level s transition selected, pendingAfterCapture_eq_ite]
  exact ⟨rfl, rfl, rfl, rfl, rfl, fun kept => by rw [kept]; rfl⟩

theorem lineLevel_capture_inPhase (level : Bool) (s : State) (transition : level ≠ s.irIn)
    (selected : level = s.edgeSel) : (lineLevel level s).InPhase := by
  rw [lineLevel_capture level s transition selected, selected]
  rfl

/-- In phase, every transition of the line is a selected one (R56). -/
theorem lineLevel_inPhase (level : Bool) (s : State) (phase : s.InPhase) : (lineLevel level s).InPhase := by
  obtain ⟨-, h⟩ | ⟨transition, unselected, -⟩ | ⟨transition, selected, -⟩ := lineLevel_cases level s
  · rw [h]
    exact phase
  · have selected : level = s.edgeSel := (Bool.eq_not_of_ne transition).trans phase.symm
    exact absurd selected unselected
  · exact lineLevel_capture_inPhase level s transition selected

/-- Settles O20: only the line moves the polarity or its level, and it keeps the phase. -/
theorem capturePhaseTracksTheLine : Obligations.CapturePhaseTracksTheLine := by
  refine ⟨fun i s t phase notPowerOn ran => ?_, fun s t level transition selected ran => ?_⟩
  · cases i with
    | tick =>
      cases ran
      obtain ⟨-, h⟩ | ⟨-, h⟩ := countTick_cases s <;> rw [h] <;> exact phase
    | ovfService =>
      cases ran
      obtain ⟨-, h⟩ | ⟨-, h⟩ := serviceOverflow_cases s <;> rw [h] <;> exact phase
    | input level => cases ran; exact lineLevel_inPhase level s phase
    | reset => cases ran; exact phase
    | submitEdge d level => cases ran; simpa [State.InPhase] using phase
    | submitEdgeMillis m level => cases ran; simpa [State.InPhase] using phase
    | registerCallback h => cases ran; exact phase
    | powerOnReset => exact absurd rfl notPowerOn
  · cases ran
    exact lineLevel_capture_inPhase level s transition selected

/-! ## The race of an overflow with a capture -/

/-- Serviced first, the pending overflow counts in the interval that the edge ends (R100, R111). -/
theorem capture_after_service (level : Bool) (s : State) (pending : s.ovfPending = true) (transition : level ≠ s.irIn)
    (selected : level = s.edgeSel) :
    lineLevel level (serviceOverflow s) =
      captured (duration s.cfg s.cnt (satInc s.cfg.ovfWidth s.ovfCount)) 0 false level s := by
  rw [serviceOverflow_of_pending s pending]
  exact (lineLevel_of_selected level { s with ovfCount := _, ovfPending := false } transition selected).trans
    (decodeEvent_with_timer _ s.edgeSel s _ _ _ _ _ _)

theorem satInc_zero (n : Nat) (wide : 2 ≤ n) : satInc n 0 = 1 := by
  have four : 2 ^ 2 ≤ 2 ^ n := Nat.pow_le_pow_right (by decide) wide
  rw [satInc]
  omega

/-- An overflow that survived a capture counts in the next interval (R100, R111). -/
theorem serviceOverflow_captured (d : Duration) (level : Bool) (s : State) (wide : 2 ≤ s.cfg.ovfWidth) :
    serviceOverflow (captured d 0 true level s) = captured d 1 false level s := by
  have one : satInc (captured d 0 true level s).cfg.ovfWidth (captured d 0 true level s).ovfCount = 1 := by
    rw [captured, decodeEvent_cfg]
    exact satInc_zero _ wide
  rw [serviceOverflow_of_pending _ rfl, one]
  rfl

/-- Captured first, the pending overflow counts in the next interval, or is lost where captures clear it. -/
theorem service_after_capture (level : Bool) (s : State) (pending : s.ovfPending = true) (wide : 2 ≤ s.cfg.ovfWidth)
    (transition : level ≠ s.irIn) (selected : level = s.edgeSel) :
    serviceOverflow (lineLevel level s) =
      captured (duration s.cfg s.cnt s.ovfCount) (if s.cfg.captureClearsOvfPending then 0 else 1) false level s := by
  rw [lineLevel_capture level s transition selected, pendingAfterCapture_eq_ite, pending]
  cases s.cfg.captureClearsOvfPending with
  | true => exact serviceOverflow_of_idle _ rfl
  | false => exact serviceOverflow_captured _ level s wide

/-- Settles O22: both orders end in a captured state, and from one counted overflow on the first is the sentinel's. -/
theorem overflowAndCaptureRace : Obligations.OverflowAndCaptureRace := by
  intro s level pending wide transition selected
  have four : 2 ^ 2 ≤ 2 ^ s.cfg.ovfWidth := Nat.pow_le_pow_right (by decide) wide
  refine ⟨_, _, rfl, rfl, capture_after_service level s pending transition selected,
    service_after_capture level s pending wide transition selected, fun counted => ?_⟩
  exact duration_of_two_le _ _ _ (by omega)

/-- Settles O21: the sentinel lies above `PREAMBLE_MIN`, so a decoder in Preamble accepts it. -/
theorem longPausePassesThePreamble : Obligations.LongPausePassesThePreamble := by
  refine ⟨duration_of_two_le, (by decide : (10000#16 : Duration) < 0xFFFF#16),
    fun s level preamble many long transition selected => ⟨_, rfl, ?_⟩⟩
  rw [lineLevel_capture level s transition selected, duration_of_two_le _ _ _ many, captured,
    decodeEvent_of_accepts _ _ s preamble long]
  exact ⟨rfl, rfl, rfl⟩

/-! ## Blindness to the decoder -/

/-- `s` with the decoder, the slot, the mark and the log of `u`: the elements the timer does not touch. -/
def withDecoderOf (u s : State) : State :=
  { s with
    st := u.st, acc := u.acc, bitCount := u.bitCount, handler := u.handler, refused := u.refused, out := u.out }

theorem countTick_withDecoderOf (u s : State) : countTick (withDecoderOf u s) = withDecoderOf u (countTick s) := by
  obtain ⟨last, h⟩ | ⟨notLast, h⟩ := countTick_cases s <;> rw [h]
  · exact countTick_of_last (withDecoderOf u s) last
  · exact countTick_of_not_last (withDecoderOf u s) notLast

theorem serviceOverflow_withDecoderOf (u s : State) :
    serviceOverflow (withDecoderOf u s) = withDecoderOf u (serviceOverflow s) := by
  obtain ⟨pending, h⟩ | ⟨idle, h⟩ := serviceOverflow_cases s <;> rw [h]
  · exact serviceOverflow_of_pending (withDecoderOf u s) pending
  · exact serviceOverflow_of_idle (withDecoderOf u s) idle

theorem lineLevel_withDecoderOf (level : Bool) (u s : State) (uncaptured : level = s.irIn ∨ level ≠ s.edgeSel) :
    lineLevel level (withDecoderOf u s) = withDecoderOf u (lineLevel level s) := by
  obtain ⟨same, h⟩ | ⟨transition, unselected, h⟩ | ⟨transition, selected, -⟩ := lineLevel_cases level s
  · rw [h]
    exact lineLevel_of_same level (withDecoderOf u s) same
  · rw [h]
    exact lineLevel_of_unselected level (withDecoderOf u s) transition unselected
  · exact absurd uncaptured (not_or.2 ⟨transition, not_not.2 selected⟩)

/-- Settles O23: the clock, the overflow handler and an uncaptured level work on the timer alone. -/
theorem timerTransactionsAreBlindToTheDecoder : Obligations.TimerTransactionsAreBlindToTheDecoder := by
  intro i s t ran timer st acc count h r out
  have blind (u : State) : exec i (withDecoderOf u s) = .next (withDecoderOf u t) := by
    obtain rfl | rfl | ⟨level, rfl, uncaptured⟩ := timer <;> cases ran
    · exact congrArg _ (countTick_withDecoderOf u s)
    · exact congrArg _ (serviceOverflow_withDecoderOf u s)
    · exact congrArg _ (lineLevel_withDecoderOf level u s uncaptured)
  exact blind { s with st := st, acc := acc, bitCount := count, handler := h, refused := r, out := out }

end Sys2Proof.Machine
end

section
/-! SUPPORT. The host's transactions (41_protocol_decoder.md R64, R65; 42_host_control.md): what they write, what they
do not read, and the decoder state's codes (10_state.md R21). -/

namespace Sys2Proof.Machine

/-- Settles O37: `RESET` is `fullReset`, which a reset state is left alone by. -/
theorem resetClearsOnlyTheDecoder : Obligations.ResetClearsOnlyTheDecoder :=
  ⟨decode_encode .reset, fun _ => ⟨rfl, fun _ ran => by cases ran; rfl⟩⟩

/-- Settles O39: power-on is one record update that the decoder's reset completes. -/
theorem powerOnResetWritesAllButTheLog : Obligations.PowerOnResetWritesAllButTheLog :=
  ⟨decode_encode .powerOnReset, fun _ => rfl⟩

/-- Settles O48: state by state, and the three unused codes one by one. -/
theorem stateCodesReadBack : Obligations.StateCodesReadBack :=
  ⟨rfl, rfl, rfl, rfl, rfl, fun st => by cases st <;> rfl, by decide⟩

/-- Settles O42: the decoder runs the same whatever the timer holds, and the other two write their own fields. -/
theorem hostTransactionsAreBlindToTheTimer : Obligations.HostTransactionsAreBlindToTheTimer := by
  intro i s t ran host cnt pending count sel status line
  obtain rfl | ⟨d, level, rfl⟩ | ⟨m, level, rfl⟩ | ⟨h, rfl⟩ := host <;> cases ran
  · rfl
  · exact congrArg _ (decodeEvent_with_timer d level s cnt pending count sel status line)
  · exact congrArg _ (decodeEvent_with_timer _ level s cnt pending count sel status line)
  · rfl

/-- Settles O30: an injected event is one run of the decoder, which leaves the timer and the slot. -/
theorem submitEdgeOnlyRunsTheDecoder : Obligations.SubmitEdgeOnlyRunsTheDecoder :=
  ⟨fun d level => decode_encode (.submitEdge d level), fun s d level =>
    ⟨_, exec_submitEdge d level s, rfl, decodeEvent_cnt d level s, decodeEvent_ovfPending d level s,
      decodeEvent_ovfCount d level s, decodeEvent_edgeSel d level s, decodeEvent_statusOut d level s,
      decodeEvent_irIn d level s, decodeEvent_handler d level s⟩⟩

/-- `SUBMIT_EDGE_MILLIS` is `SUBMIT_EDGE` with the clamped and rescaled duration (R65). -/
theorem exec_submitEdgeMillis (m : Millis) (level : Bool) (s : State) :
    exec (.submitEdgeMillis m level) s = exec (.submitEdge (millisToMicros s.cfg m) level) s := rfl

/-- The product fits 16 bits where the largest one does, which R7 asks. -/
theorem millisToMicros_toNat (c : Config) (m : Millis) (fits : c.millisCap * c.millisScale ≤ 65535) :
    (millisToMicros c m).toNat = min m.toNat c.millisCap * c.millisScale := by
  have clamped : min m.toNat c.millisCap * c.millisScale ≤ c.millisCap * c.millisScale :=
    Nat.mul_le_mul_right _ (Nat.min_le_right _ _)
  rw [millisToMicros, BitVec.toNat_ofNat, Nat.mod_eq_of_lt (by omega)]

theorem millisToMicros_toNat_atDefaults (c : Config) (m : Millis) (defaults : c.AtDefaults) :
    (millisToMicros c m).toNat = min m.toNat 65 * 1000 := by
  have cap : c.millisCap = 65 := congrArg Config.millisCap defaults
  have scale : c.millisScale = 1000 := congrArg Config.millisScale defaults
  rw [millisToMicros_toNat c m (by rw [cap, scale]; decide), cap, scale]

/-- Settles O31: R7 makes the product exact, and at the defaults the cap is reached at 65. -/
theorem submitEdgeMillisClampsAndRescales : Obligations.SubmitEdgeMillisClampsAndRescales := by
  refine ⟨fun m level => decode_encode (.submitEdgeMillis m level), fun s m level wf => ?_,
    fun s m level defaults capped => ?_⟩
  · obtain ⟨-, -, -, -, -, -, -, -, fits, -⟩ := wf
    exact ⟨millisToMicros s.cfg m, millisToMicros_toNat s.cfg m fits, rfl, rfl⟩
  · have value : millisToMicros s.cfg m = 65000#16 := by
      apply BitVec.eq_of_toNat_eq
      rw [millisToMicros_toNat_atDefaults s.cfg m defaults, Nat.min_eq_right capped]
      rfl
    rw [exec_submitEdgeMillis, value]

end Sys2Proof.Machine
end

section
/-! SUPPORT. One event in the decoder (41_protocol_decoder.md R66 to R78): the windows and the bit at the defaults,
the arcs as single transactions, the last bit with a consumer that calls back. -/

namespace Sys2Proof.Machine

/-! ## The windows at the defaults -/

theorem accepts_preamble_iff (c : Config) (d : Duration) (defaults : c.AtDefaults) :
    accepts c d .preamble ↔ 10000 < d.toNat := by
  rw [accepts, congrArg Config.preambleMin defaults]
  exact BitVec.lt_def

theorem accepts_syncHigh_iff (c : Config) (d : Duration) (defaults : c.AtDefaults) :
    accepts c d .syncHigh ↔ 150 < d.toNat ∧ d.toNat < 250 := by
  rw [accepts, congrArg Config.syncHigh defaults]
  exact and_congr BitVec.lt_def BitVec.lt_def

theorem accepts_syncLow_iff (c : Config) (d : Duration) (defaults : c.AtDefaults) :
    accepts c d .syncLow ↔ 900 < d.toNat ∧ d.toNat < 1100 := by
  rw [accepts, congrArg Config.syncLow defaults]
  exact and_congr BitVec.lt_def BitVec.lt_def

theorem accepts_headerHigh_iff (c : Config) (d : Duration) (defaults : c.AtDefaults) :
    accepts c d .headerHigh ↔ 150 < d.toNat ∧ d.toNat < 250 := by
  rw [accepts, congrArg Config.headerHigh defaults]
  exact and_congr BitVec.lt_def BitVec.lt_def

theorem bit_window_iff (c : Config) (d : Duration) (defaults : c.AtDefaults) :
    ((c.bit1.lo < d ∨ (c.bit1LoInclusive = true ∧ d = c.bit1.lo)) ∧ d < c.bit1.hi) ↔
      501 ≤ d.toNat ∧ d.toNat ≤ 599 := by
  have window : c.bit1 = ⟨500#16, 600#16⟩ := congrArg Config.bit1 defaults
  have openLo : c.bit1LoInclusive = false := congrArg Config.bit1LoInclusive defaults
  simp only [window, openLo, BitVec.lt_def, Bool.false_eq_true, false_and, or_false]
  exact and_congr Nat.lt_iff_add_one_le Nat.lt_add_one_iff

theorem bitOf_atDefaults (c : Config) (d : Duration) (defaults : c.AtDefaults) :
    bitOf c d = if 501 ≤ d.toNat ∧ d.toNat ≤ 599 then 1 else 0 := by
  simp only [bitOf, bit_window_iff c d defaults]

/-! ## One event -/

/-- Settles O24: each state before BitAccumulate accepts in its window and resyncs outside it. -/
theorem headerArcsAcceptOrResync : Obligations.HeaderArcsAcceptOrResync := by
  intro s d level
  refine ⟨fun now inside => ?_, fun now inside => ?_, fun now inside => ?_, fun now inside => ?_, fun outside => ?_,
    fun defaults => ?_⟩
  case refine_5 =>
    have failed : decodeEvent d level s = resync level s := by
      obtain ⟨now, out⟩ | ⟨now, out⟩ | ⟨now, out⟩ | ⟨now, out⟩ := outside <;>
        exact decodeEvent_of_rejects d level s now (by decide) out
    rw [exec_submitEdge, failed]
    rfl
  case refine_6 =>
    exact ⟨congrArg Config.preambleMin defaults, congrArg Config.syncHigh defaults, congrArg Config.syncLow defaults,
      congrArg Config.headerHigh defaults, congrArg Config.highEndingLevel defaults⟩
  all_goals exact congrArg _ (decodeEvent_of_accepts d level s now inside)

theorem exec_submitEdge_short (d : Duration) (level : Bool) (s : State) (collecting : s.st = .bitAccumulate)
    (short : s.bitCount + 1 < s.cfg.wordBits) : exec (.submitEdge d level) s = .next (accumulate d s) := by
  rw [exec_submitEdge, decodeEvent_of_collecting d level s collecting, arcBit_of_short d s short]

/-- Settles O25: short of the last bit the arc accumulates the bit the window decides. -/
theorem bitArcShiftsInTheDecidedBit : Obligations.BitArcShiftsInTheDecidedBit := by
  intro s d level collecting short
  rw [exec_submitEdge_short d level s collecting short]
  refine ⟨fun inside => ?_, fun outside => ?_, bit_window_iff s.cfg d⟩
  · rw [accumulate, bitOf, if_pos inside]
  · rw [accumulate, bitOf, if_neg outside, Nat.add_zero]

/-- Settles O28: a full count takes the guard's branch of the arc, which is `fullReset`. -/
theorem overrunGuardDiscardsTheEvent : Obligations.OverrunGuardDiscardsTheEvent := by
  intro s d level collecting full
  rw [exec_submitEdge, decodeEvent_of_collecting d level s collecting, arcBit_of_full d s full]
  rfl

/-- Settles O29: the level enters the decoder only where a window rejects. -/
theorem acceptanceIgnoresTheLevel : Obligations.AcceptanceIgnoresTheLevel := by
  intro s d taken
  refine ⟨decodeEvent d true s, rfl, (exec_submitEdge d false s).trans (congrArg _ ?_)⟩
  obtain now | ⟨now, inside⟩ | ⟨now, inside⟩ | ⟨now, inside⟩ | ⟨now, inside⟩ := taken
  case inl => rw [decodeEvent_of_collecting d _ s now, decodeEvent_of_collecting d _ s now]
  all_goals rw [decodeEvent_of_accepts d _ s now inside, decodeEvent_of_accepts d _ s now inside]

/-- Settles O27: with a handler in the slot, a script with a call differs from an empty one by the mark alone. -/
theorem reentrantCallsAreRefused : Obligations.ReentrantCallsAreRefused := by
  intro s t d level h call calls later collecting last holds script ran
  have silent := decodeEvent_of_lastBit d level { s with consumer := [] :: later } collecting last
  rw [exec_submitEdge, silent, complete_eq] at ran
  rw [exec_submitEdge, decodeEvent_of_lastBit d level s collecting last, complete_eq]
  cases ran
  simp [holds, script]

theorem resyncTarget_ne_headerHigh (c : Config) (level : Bool) : resyncTarget c level ≠ .headerHigh := by
  unfold resyncTarget
  split <;> decide

/-- Settles O32: a multiple of 1000 below 65001 lies above `PREAMBLE_MIN` from 11000 on, in the SyncLow window at 1000
alone, and in no other window. -/
theorem millisecondEventsFitOneWindow : Obligations.MillisecondEventsFitOneWindow := by
  intro s m level defaults
  have micros := millisToMicros_toNat_atDefaults s.cfg m defaults
  refine ⟨_, exec_submitEdgeMillis m level s, fun now long => ?_, fun now brief => ?_, fun now => ?_, fun now => ?_,
    fun now short => ?_⟩
  · exact decodeEvent_of_accepts _ level s now ((accepts_preamble_iff _ _ defaults).2 (by omega))
  · exact decodeEvent_of_rejects _ level s now (by decide) (mt (accepts_preamble_iff _ _ defaults).1 (by omega))
  · obtain now | now := now
    · exact decodeEvent_of_rejects _ level s now (by decide) (mt (accepts_syncHigh_iff _ _ defaults).1 (by omega))
    · exact decodeEvent_of_rejects _ level s now (by decide) (mt (accepts_headerHigh_iff _ _ defaults).1 (by omega))
  · have inside : accepts s.cfg (millisToMicros s.cfg m) .syncLow ↔ m = 1#8 := by
      rw [accepts_syncLow_iff _ _ defaults, micros, ← BitVec.toNat_inj, BitVec.toNat_ofNat]
      omega
    by_cases one : m = 1#8
    · rw [decodeEvent_of_accepts _ level s now (inside.2 one)]
      exact iff_of_true rfl one
    · rw [decodeEvent_of_rejects _ level s now (by decide) (mt inside.1 one)]
      exact iff_of_false (resyncTarget_ne_headerHigh s.cfg level) one
  · have bits : s.cfg.wordBits = 16 := congrArg Config.wordBits defaults
    rw [decodeEvent_of_collecting _ level s now, arcBit_of_short _ s (by omega), accumulate,
      bitOf_atDefaults _ _ defaults, if_neg (by omega), Nat.add_zero]

end Sys2Proof.Machine
end

section
/-! SUPPORT. Whole words (41_protocol_decoder.md R71 to R79): the events that fill a word, the number they spell, and
the frame of `SUBMIT_FRAME` (30_encoding.md R48), submitted by the host. -/

namespace Sys2Proof.Machine

/-! ## The events that fill a word -/

/-- The injected event of a duration and a level (R64). -/
def submit (e : Duration × Bool) : Instr := .submitEdge e.1 e.2

/-- The bits of `events` taken in one after another, none of them the last (R72). -/
def accumulateAll (events : List (Duration × Bool)) (s : State) : State := events.foldl (fun t e => accumulate e.1 t) s

theorem accumulateAll_cons (e : Duration × Bool) (rest : List (Duration × Bool)) (s : State) :
    accumulateAll (e :: rest) s = accumulateAll rest (accumulate e.1 s) := rfl

theorem accumulateAll_eq (events : List (Duration × Bool)) (s : State) :
    accumulateAll events s =
      { s with acc := (accumulateAll events s).acc, bitCount := s.bitCount + events.length } := by
  induction events generalizing s with
  | nil => rfl
  | cons e rest ih =>
    rw [accumulateAll_cons, ih, List.length_cons, accumulate_bitCount, Nat.add_right_comm, Nat.add_assoc]
    rfl

/-- Events that fill the word exactly are taken in, and the last completes it (R71, R75). -/
theorem runInstrs_fill (events : List (Duration × Bool)) (s : State) (collecting : s.st = .bitAccumulate)
    (nonempty : events ≠ []) (fills : s.bitCount + events.length = s.cfg.wordBits) :
    runInstrs (events.map submit) s = .next (complete (accumulateAll events s)) := by
  induction events generalizing s with
  | nil => exact absurd rfl nonempty
  | cons e rest ih =>
    rw [List.length_cons] at fills
    rw [List.map_cons, accumulateAll_cons]
    cases rest with
    | nil =>
      have last : s.bitCount + 1 = s.cfg.wordBits := fills
      exact congrArg _ (decodeEvent_of_lastBit e.1 e.2 s collecting last)
    | cons e' rest =>
      rw [List.length_cons] at fills
      have taken : exec (submit e) s = .next (accumulate e.1 s) :=
        exec_submitEdge_short e.1 e.2 s collecting (by omega)
      rw [runInstrs_cons _ _ s _ taken]
      refine ih _ collecting (List.cons_ne_nil _ _) ?_
      rw [accumulate_bitCount, accumulate_cfg, List.length_cons]
      omega

/-- The number that the bits of `events` spell below the value `v`, the first bit highest. -/
def spelled (c : Config) (v : Nat) (events : List (Duration × Bool)) : Nat :=
  events.foldl (fun v e => v * 2 + bitOf c e.1) v

theorem accumulate_acc_toNat (d : Duration) (s : State) (fits : s.acc.toNat < 2 ^ s.bitCount)
    (room : s.bitCount + 1 ≤ 16) : (accumulate d s).acc.toNat = s.acc.toNat * 2 + bitOf s.cfg d := by
  have bit := bitOf_le_one s.cfg d
  have width : 2 ^ (s.bitCount + 1) ≤ 2 ^ 16 := Nat.pow_le_pow_right (by decide) room
  rw [Nat.pow_succ] at width
  rw [accumulate_acc, BitVec.toNat_ofNat, Nat.mod_eq_of_lt (by omega)]

/-- No bit of the accumulator is lost while the word has room for it. -/
theorem accumulateAll_acc_toNat (events : List (Duration × Bool)) (s : State) (fits : s.acc.toNat < 2 ^ s.bitCount)
    (room : s.bitCount + events.length ≤ 16) :
    (accumulateAll events s).acc.toNat = spelled s.cfg s.acc.toNat events := by
  induction events generalizing s with
  | nil => rfl
  | cons e rest ih =>
    rw [List.length_cons] at room
    rw [accumulateAll_cons, ih _ (accumulate_acc_lt e.1 s fits) (by rw [accumulate_bitCount]; omega),
      accumulate_acc_toNat e.1 s fits (by omega)]
    rfl

/-- The spelled number as a sum over the positions, R77's. -/
theorem spelled_eq_sum (c : Config) (v : Nat) (events : List (Duration × Bool)) :
    spelled c v events =
      v * 2 ^ events.length +
        ((List.range events.length).map fun k =>
          bitOf c (events.getD k (0#16, false)).1 * 2 ^ (events.length - 1 - k)).sum := by
  induction events generalizing v with
  | nil => simp [spelled]
  | cons e rest ih =>
    have head : spelled c v (e :: rest) = spelled c (v * 2 + bitOf c e.1) rest := rfl
    have place (k : Nat) : rest.length + 1 - 1 - (k + 1) = rest.length - 1 - k := by omega
    rw [head, ih, List.length_cons, List.range_succ_eq_map, List.map_cons, List.sum_cons, List.map_map]
    simp only [Function.comp_def, List.getD_cons_succ, List.getD_cons_zero, Nat.succ_eq_add_one, place]
    rw [Nat.add_sub_cancel, Nat.sub_zero, Nat.pow_succ]
    ring

/-- Settles O34: the word that fills up is the accumulator's value with the events' bits below it. -/
theorem remainingEventsSpellTheWord : Obligations.RemainingEventsSpellTheWord := by
  intro s events collecting bits fits nonempty fills
  refine ⟨_, (accumulateAll events s).acc, runInstrs_fill events s collecting nonempty (fills.trans bits.symm), ?_⟩
  rw [complete_eq]
  refine ⟨?_, rfl, rfl, rfl, ?_⟩
  · rw [accumulateAll_eq]
  · rw [accumulateAll_acc_toNat events s fits (by omega), spelled_eq_sum]

/-! ## The submitted frame -/

/-- The pulses of `SUBMIT_FRAME w`: their lengths in microseconds and their levels (R48). -/
def framePulses (w : Command) : List (Nat × Bool) :=
  [(12000, true), (200, false), (1000, true), (200, false)] ++
    (List.range 16).map fun k => (if w.getLsbD (15 - k) then 550 else 300, k % 2 == 0)

/-- The data events of `SUBMIT_FRAME w`, in order of arrival (R48). -/
def frameBits (w : Command) : List (Duration × Bool) :=
  (List.range 16).map fun k => (if w.getLsbD (15 - k) then 550#16 else 300#16, k % 2 == 0)

theorem expandFrame_eq (w : Command) : expandFrame w = frameHeader ++ (frameBits w).map submit := by
  rw [frameBits, List.map_map]
  rfl

/-- A 12000 µs pulse that ends high leads to SyncHigh from every state before BitAccumulate: accepted in Preamble, a
resync elsewhere (R67 to R70, R73). -/
theorem decodeEvent_preamblePulse (s : State) (defaults : s.cfg.AtDefaults) (early : s.st ≠ .bitAccumulate)
    (acc : s.acc = 0#16) (bitCount : s.bitCount = 0) :
    decodeEvent 12000#16 true s = { s with st := .syncHigh } := by
  have resynced : resync true s = { s with st := .syncHigh } := by
    rw [resync, resyncTarget, congrArg Config.highEndingLevel defaults, ← acc, ← bitCount]
    rfl
  cases now : s.st with
  | preamble => exact decodeEvent_of_accepts _ _ s now ((accepts_preamble_iff _ _ defaults).2 (by decide))
  | syncHigh =>
    rw [decodeEvent_of_rejects _ _ s now (by decide) (mt (accepts_syncHigh_iff _ _ defaults).1 (by decide)), resynced]
  | syncLow =>
    rw [decodeEvent_of_rejects _ _ s now (by decide) (mt (accepts_syncLow_iff _ _ defaults).1 (by decide)), resynced]
  | headerHigh =>
    rw [decodeEvent_of_rejects _ _ s now (by decide) (mt (accepts_headerHigh_iff _ _ defaults).1 (by decide)), resynced]
  | bitAccumulate => exact absurd now early

/-- The four sync pulses lead to BitAccumulate and change nothing else (R48, R67 to R70). -/
theorem runInstrs_frameHeader (s : State) (defaults : s.cfg.AtDefaults) (early : s.st ≠ .bitAccumulate)
    (acc : s.acc = 0#16) (bitCount : s.bitCount = 0) :
    runInstrs frameHeader s = .next { s with st := .bitAccumulate } := by
  have accepted {st : DecoderState} (d : Duration) (level : Bool) (inside : accepts s.cfg d st) :
      exec (.submitEdge d level) { s with st := st } = .next { s with st := successor st } :=
    congrArg _ (decodeEvent_of_accepts d level { s with st := st } rfl inside)
  have preamble : exec (.submitEdge 12000#16 true) s = .next { s with st := .syncHigh } :=
    congrArg _ (decodeEvent_preamblePulse s defaults early acc bitCount)
  have syncHigh : exec (.submitEdge 200#16 false) { s with st := .syncHigh } = .next { s with st := .syncLow } :=
    accepted _ _ ((accepts_syncHigh_iff _ _ defaults).2 (by decide))
  have syncLow : exec (.submitEdge 1000#16 true) { s with st := .syncLow } = .next { s with st := .headerHigh } :=
    accepted _ _ ((accepts_syncLow_iff _ _ defaults).2 (by decide))
  have headerHigh :
      exec (.submitEdge 200#16 false) { s with st := .headerHigh } = .next { s with st := .bitAccumulate } :=
    accepted _ _ ((accepts_headerHigh_iff _ _ defaults).2 (by decide))
  rw [frameHeader, runInstrs_cons _ _ _ _ preamble, runInstrs_cons _ _ _ _ syncHigh, runInstrs_cons _ _ _ _ syncLow,
    runInstrs_cons _ _ _ _ headerHigh]
  rfl

/-- Reading the upper bits of a 16-bit number one after another, the highest first. -/
theorem foldl_upperBits (x : Nat) (small : x < 2 ^ 16) (n : Nat) (le : n ≤ 16) :
    (List.range n).foldl (fun v k => v * 2 + (x.testBit (15 - k)).toNat) 0 = x / 2 ^ (16 - n) := by
  induction n with
  | zero => exact (Nat.div_eq_of_lt small).symm
  | succ n ih =>
    have place : 16 - n = (16 - (n + 1)) + 1 := by omega
    have bit : 15 - n = 16 - (n + 1) := by omega
    rw [List.range_succ, List.foldl_append, ih (by omega), List.foldl_cons, List.foldl_nil, place, bit,
      Nat.toNat_testBit, Nat.pow_succ, ← Nat.div_div_eq_div_mul]
    omega

/-- The data events of the frame spell its word. -/
theorem spelled_frameBits (c : Config) (w : Command) (defaults : c.AtDefaults) :
    spelled c 0 (frameBits w) = w.toNat := by
  have bit (b : Bool) : bitOf c (if b then 550#16 else 300#16) = b.toNat := by
    rw [bitOf_atDefaults c _ defaults]
    cases b <;> rfl
  rw [spelled, frameBits, List.foldl_map]
  simp only [bit, BitVec.getLsbD]
  rw [foldl_upperBits w.toNat w.isLt 16 (Nat.le_refl 16)]
  exact Nat.div_one _

theorem accumulateAll_frameBits (w : Command) (s : State) (defaults : s.cfg.AtDefaults) (acc : s.acc = 0#16)
    (bitCount : s.bitCount = 0) : (accumulateAll (frameBits w) s).acc = w := by
  apply BitVec.eq_of_toNat_eq
  have empty : s.acc.toNat = 0 := by rw [acc]; rfl
  rw [accumulateAll_acc_toNat _ s (by rw [empty]; exact Nat.two_pow_pos _) (by rw [bitCount]; exact Nat.le_refl 16),
    empty, spelled_frameBits s.cfg w defaults]

/-- Settles O35: the sync pulses open the word and the data pulses fill it with `w`. -/
theorem submittedFrameDeliversItsWord : Obligations.SubmittedFrameDeliversItsWord := by
  intro s w defaults early acc bitCount
  have bits : s.cfg.wordBits = 16 := congrArg Config.wordBits defaults
  have rep : s.cfg.repeatCount = 1#8 := congrArg Config.repeatCount defaults
  have length : (frameBits w).length = 16 := by rw [frameBits, List.length_map, List.length_range]
  have fills : s.bitCount + (frameBits w).length = s.cfg.wordBits := by rw [bitCount, bits, length]
  have nonempty : frameBits w ≠ [] := List.ne_nil_of_length_pos (by omega)
  have word := accumulateAll_frameBits w { s with st := .bitAccumulate } defaults acc bitCount
  have ran : runInstrs (expandFrame w) s =
      .next (complete (accumulateAll (frameBits w) { s with st := .bitAccumulate })) := by
    rw [expandFrame_eq, runInstrs_append _ _ s _ (runInstrs_frameHeader s defaults early acc bitCount)]
    exact runInstrs_fill (frameBits w) { s with st := .bitAccumulate } rfl nonempty fills
  refine ⟨_, ran, ?_⟩
  rw [complete_eq, accumulateAll_eq, word, rep]
  exact ⟨rfl, rfl, rfl, rfl, rfl, rfl, rfl, rfl, rfl, rfl, rfl⟩

end Sys2Proof.Machine
end

section
/-! SUPPORT. The frame on the input line (30_encoding.md R47, R48; 40_edge_timer.md R57): a pulse of `n` ticks ends in
a capture that hands the decoder `n`, so a line whose pulses alternate drives the decoder as the host's events do. -/

namespace Sys2Proof.Machine

/-- The timer has just been rearmed, and the capture unit waits for the line to go to `level`. -/
structure Awaits (level : Bool) (s : State) : Prop where
  cnt : s.cnt = 0
  ovfPending : s.ovfPending = false
  ovfCount : s.ovfCount = 0
  irIn : s.irIn = !level
  edgeSel : s.edgeSel = level

theorem captured_awaits (d : Duration) (level : Bool) (s : State) (awaits : Awaits level s) :
    Awaits (!level) (captured d 0 false level s) :=
  ⟨rfl, rfl, rfl, (Bool.not_not level).symm, congrArg (!·) awaits.edgeSel⟩

/-- What a capture leaves depends on the counter through the interval alone. -/
theorem captured_with_cnt (d : Duration) (count : Nat) (pending level : Bool) (s : State) (cnt : Nat) :
    captured d count pending level { s with cnt := cnt } = captured d count pending level s := by
  have blind := decodeEvent_with_timer d s.edgeSel s cnt s.ovfPending s.ovfCount s.edgeSel s.statusOut s.irIn
  rw [captured, blind]
  rfl

/-- A pulse shorter than the period is captured at its length (R47, R57). -/
theorem runInstrs_pulse (n : Nat) (level : Bool) (s : State) (awaits : Awaits level s)
    (short : n < 2 ^ s.cfg.timerWidth) :
    runInstrs (expandPulse n level) s = .next (captured (conv s.cfg n) 0 false level s) := by
  have counted : runInstrs (expandTicks n) s = .next { s with cnt := n } := by
    rw [ticksAdvanceTheCounterModulo n s (by rw [awaits.cnt]; exact Nat.two_pow_pos _), awaits.cnt, Nat.zero_add,
      Nat.mod_eq_of_lt short, decide_eq_false (Nat.not_le.2 short), Bool.or_false]
  have transition : level ≠ s.irIn := by rw [awaits.irIn]; cases level <;> decide
  have captures : lineLevel level { s with cnt := n } = captured (conv s.cfg n) 0 false level s := by
    have kept : pendingAfterCapture { s with cnt := n } = false := by
      rw [pendingAfterCapture, awaits.ovfPending, Bool.false_and]
    have interval : duration s.cfg n s.ovfCount = conv s.cfg n := by rw [awaits.ovfCount, duration_of_zero]
    rw [lineLevel_capture level { s with cnt := n } transition awaits.edgeSel.symm, kept, ← interval]
    exact captured_with_cnt _ _ _ _ s n
  rw [expandPulse, runInstrs_append _ _ s _ counted]
  exact congrArg _ captures

/-- The levels alternate, beginning with `level`, and the level after the last is `next`. -/
def alternates (level : Bool) (levels : List Bool) (next : Bool) : Bool :=
  match levels with
  | [] => level == next
  | first :: rest => first == level && alternates (!level) rest next

/-- The event that the capture of a pulse hands to the decoder. -/
def eventOfPulse (c : Config) (pulse : Nat × Bool) : Duration × Bool := (conv c pulse.1, pulse.2)

theorem exec_submit (e : Duration × Bool) (s : State) : exec (submit e) s = .next (decodeEvent e.1 e.2 s) := rfl

/-- A capture leaves the decoder as the injected event of its interval does. -/
theorem captured_withTimerOf (d : Duration) (level : Bool) (s u : State) (awaits : Awaits level s)
    (same : s = withTimerOf s u) :
    captured d 0 false level s = withTimerOf (captured d 0 false level s) (decodeEvent d level u) := by
  have decoded : decodeEvent d level s = withTimerOf s (decodeEvent d level u) := by
    rw [← decodeEvent_withTimerOf, ← same]
  rw [captured, awaits.edgeSel, decoded]
  rfl

/-- A line whose pulses alternate, none of them as long as a period, drives the decoder as the injected events of the
same durations and levels do: by induction on the pulses, the timer being rearmed after each. -/
theorem line_follows_submissions (pulses : List (Nat × Bool)) (level next : Bool) (s u : State)
    (awaits : Awaits level s) (same : s = withTimerOf s u)
    (alternating : alternates level (pulses.map Prod.snd) next = true)
    (short : ∀ pulse ∈ pulses, pulse.1 < 2 ^ s.cfg.timerWidth) (v : State)
    (ran : runInstrs ((pulses.map (eventOfPulse s.cfg)).map submit) u = .next v) :
    ∃ t, runInstrs (pulses.flatMap fun pulse => expandPulse pulse.1 pulse.2) s = .next t ∧
      t = withTimerOf t v ∧ Awaits next t := by
  induction pulses generalizing level s u with
  | nil =>
    cases ran
    obtain rfl : level = next := eq_of_beq alternating
    exact ⟨s, rfl, same, awaits⟩
  | cons pulse rest ih =>
    obtain ⟨n, first⟩ := pulse
    simp only [List.map_cons, alternates, Bool.and_eq_true, beq_iff_eq] at alternating
    obtain ⟨rfl, alternating⟩ := alternating
    have captures := runInstrs_pulse n first s awaits (short _ List.mem_cons_self)
    have cfg : (captured (conv s.cfg n) 0 false first s).cfg = s.cfg := decodeEvent_cfg _ _ s
    rw [List.flatMap_cons, runInstrs_append _ _ s _ captures]
    rw [List.map_cons, List.map_cons, runInstrs_cons _ _ u _ (exec_submit _ u)] at ran
    refine ih (!first) _ (decodeEvent (conv s.cfg n) first u) (captured_awaits _ first s awaits)
      (captured_withTimerOf _ first s u awaits same) alternating (fun p mem => ?_) ?_
    · rw [cfg]
      exact short p (List.mem_cons_of_mem _ mem)
    · rw [cfg]
      exact ran

/-- At one tick per microsecond an interval up to `SAT_MAX` is its number of ticks (R53). -/
theorem conv_of_one_tick_per_micro (c : Config) (n : Nat) (unit : c.tickNum = c.tickDen) (pos : 1 ≤ c.tickDen)
    (le : n ≤ c.satMax.toNat) : conv c n = BitVec.ofNat 16 n := by
  rw [conv, unit, Nat.mul_div_cancel n pos, Nat.min_eq_left le]

theorem framePulses_le (w : Command) : ∀ pulse ∈ framePulses w, pulse.1 ≤ 12000 := by
  have data (k : Nat) : (if w.getLsbD (15 - k) then 550 else 300) ≤ 12000 := by split <;> decide
  simp [framePulses, data]

/-- The pulses of the frame are the events of `SUBMIT_FRAME` on the line. -/
theorem map_framePulses (c : Config) (w : Command) (convs : ∀ n ≤ 12000, conv c n = BitVec.ofNat 16 n) :
    ((framePulses w).map (eventOfPulse c)).map submit = expandFrame w := by
  have data (k : Nat) :
      conv c (if w.getLsbD (15 - k) then 550 else 300) = if w.getLsbD (15 - k) then 550#16 else 300#16 := by
    split <;> exact convs _ (by decide)
  have header : conv c 12000 = 12000#16 ∧ conv c 200 = 200#16 ∧ conv c 1000 = 1000#16 :=
    ⟨convs _ (by decide), convs _ (by decide), convs _ (by decide)⟩
  obtain ⟨preamble, high, low⟩ := header
  rw [framePulses, List.map_append, List.map_append, expandFrame_eq, frameBits]
  simp only [List.map_cons, List.map_nil, List.map_map, Function.comp_def, eventOfPulse, submit, data, preamble, high,
    low, frameHeader]

/-- Settles O36: the captures of the line hand the decoder the events of the submitted frame. -/
theorem lineFrameDeliversItsWord : Obligations.LineFrameDeliversItsWord := by
  intro s w defaults unit pos long cnt pending count line sel early acc bitCount
  have sat : s.cfg.satMax = 0xFFFF#16 := congrArg Config.satMax defaults
  have convs (n : Nat) (le : n ≤ 12000) : conv s.cfg n = BitVec.ofNat 16 n :=
    conv_of_one_tick_per_micro s.cfg n unit pos (by rw [sat]; exact le.trans (by decide))
  obtain ⟨v, submitted, out, st, -⟩ := submittedFrameDeliversItsWord s w defaults early acc bitCount
  rw [← map_framePulses s.cfg w convs] at submitted
  obtain ⟨t, ran, same, awaits⟩ := line_follows_submissions (framePulses w) true true s s
    ⟨cnt, pending, count, line, sel⟩ rfl rfl (fun p mem => (framePulses_le w p mem).trans_lt long) v submitted
  refine ⟨t, ran, ?_, ?_, awaits.cnt, awaits.ovfPending, awaits.ovfCount, awaits.irIn, awaits.edgeSel⟩
  · rw [same]; exact out
  · rw [same]; exact st

end Sys2Proof.Machine
end

section
/-! SUPPORT. Assembler lines (30_encoding.md R45 to R49): their ranges and what they expand to, and the
printed form of an instruction read back. -/

namespace Sys2Proof.Machine

/-! ## Expansion -/

theorem expandLine_eq_none_iff (line : AsmLine) : expandLine line = none ↔ line.wf = false := by
  unfold expandLine
  cases line.wf <;> simp

/-- The line of an instruction has its operands in range, whatever they are. -/
theorem lineOfInstr_wf (i : Instr) : (lineOfInstr i).wf = true := by
  have level (l : Bool) : l.toNat ≤ 1 := Bool.toNat_le l
  cases i <;> simp [lineOfInstr, AsmLine.wf, level] <;> omega

theorem expandLine_lineOfInstr (i : Instr) : expandLine (lineOfInstr i) = some [i] := by
  refine (if_pos (lineOfInstr_wf i)).trans ?_
  cases i <;> simp [lineOfInstr]

theorem expandFrame_ofNat (w : Nat) (fits : w ≤ 65535) :
    expandFrame (BitVec.ofNat 16 w) =
      frameHeader ++ (List.range 16).map fun k =>
        .submitEdge (if w.testBit (15 - k) then 550#16 else 300#16) (k % 2 == 0) := by
  have bit (k : Nat) : (BitVec.ofNat 16 w).getLsbD (15 - k) = w.testBit (15 - k) := by
    rw [BitVec.getLsbD, BitVec.toNat_ofNat, Nat.mod_eq_of_lt (by omega)]
  have bits : frameBit (BitVec.ofNat 16 w) = fun k =>
      .submitEdge (if w.testBit (15 - k) then 550#16 else 300#16) (k % 2 == 0) := by
    funext k
    rw [frameBit, bit]
  rw [expandFrame, bits]

theorem assembleLine_of_parseLine (text : Text) (line : AsmLine) (parsed : parseLine text = some [line]) :
    assembleLine text = (expandLine line).map fun instrs => instrs.map encode := by
  rw [assembleLine, parsed]
  cases h : expandLine line <;> simp [h]

theorem outOfRange_iff (a max : Nat) : decide (a ≤ max) = false ↔ max < a :=
  decide_eq_false_iff_not.trans Nat.not_le

theorem outOfRanges_iff (a maxA b maxB : Nat) :
    (decide (a ≤ maxA) && decide (b ≤ maxB)) = false ↔ maxA < a ∨ maxB < b := by
  rw [Bool.and_eq_false_iff, outOfRange_iff, outOfRange_iff]

/-- Settles O50: a line expands to nothing exactly out of its ranges, and the assembler encodes its expansion. -/
theorem outOfRangeOperandsEmitNoWord : Obligations.OutOfRangeOperandsEmitNoWord := by
  refine ⟨fun l => (expandLine_eq_none_iff _).trans (outOfRange_iff l 1),
    fun d l => (expandLine_eq_none_iff _).trans (outOfRanges_iff d 65535 l 1),
    fun m l => (expandLine_eq_none_iff _).trans (outOfRanges_iff m 255 l 1),
    fun h => (expandLine_eq_none_iff _).trans (outOfRange_iff h 255), expandLine_lineOfInstr, fun n => rfl,
    fun n l => (expandLine_eq_none_iff _).trans (outOfRange_iff l 1), fun n l inRange => ?_,
    fun w => (expandLine_eq_none_iff _).trans (outOfRange_iff w 65535), fun w inRange => ?_, assembleLine_of_parseLine⟩
  · exact if_pos (decide_eq_true inRange)
  · exact (if_pos (decide_eq_true inRange)).trans (congrArg some (expandFrame_ofNat w inRange))

/-! ## Reading what is printed -/

/-- A mnemonic's characters: no blank and no comment mark among them. -/
def isMnemonic (t : Text) : Bool := t.all (fun c => !isBlank c && c != ';') && !t.isEmpty

theorem isMnemonic_iff (t : Text) :
    isMnemonic t = true ↔ (∀ c ∈ t, isBlank c = false ∧ c ≠ ';') ∧ t ≠ [] := by
  simp [isMnemonic]

/-- A mnemonic, a blank and operands read as the line of that mnemonic with those operands (R45). -/
theorem parseLine_of_operands (mnemonic operands : Text) (values : List Nat) (line : AsmLine)
    (word : isMnemonic mnemonic = true) (noComment : ';' ∉ operands)
    (last : ∀ c, (' ' :: operands).getLast? = some c → isBlank c = false)
    (parsed : parseOperands (' ' :: operands) = some values) (meaning : lineOf mnemonic values = some line) :
    parseLine (mnemonic ++ ' ' :: operands) = some [line] := by
  obtain ⟨letters, named⟩ := (isMnemonic_iff mnemonic).1 word
  have uncommented : beforeComment (mnemonic ++ ' ' :: operands) = mnemonic ++ ' ' :: operands := by
    rw [beforeComment, List.takeWhile_eq_self_iff]
    intro c mem
    obtain inMnemonic | rfl | inOperands : c ∈ mnemonic ∨ c = ' ' ∨ c ∈ operands := by simpa using mem
    · exact bne_iff_ne.2 (letters c inMnemonic).2
    · rfl
    · exact bne_iff_ne.2 fun comment => noComment (comment ▸ inOperands)
  have untrimmed : trimBlanks (mnemonic ++ ' ' :: operands) = mnemonic ++ ' ' :: operands := by
    refine trimBlanks_eq_self _ (fun c first => ?_) (fun c h => last c ?_)
    · rw [List.head?_append_of_ne_nil _ named] at first
      exact (letters c (List.mem_of_head? first)).1
    · rwa [List.getLast?_append_of_ne_nil _ (List.cons_ne_nil _ _)] at h
  have unblank : ∀ c ∈ mnemonic, (!isBlank c) = true := fun c mem => by rw [(letters c mem).1]; rfl
  have head : (mnemonic ++ ' ' :: operands).takeWhile (fun c => !isBlank c) = mnemonic := by
    rw [List.takeWhile_append_of_pos unblank]
    exact List.append_nil _
  have tail : (mnemonic ++ ' ' :: operands).dropWhile (fun c => !isBlank c) = ' ' :: operands :=
    List.dropWhile_append_of_pos unblank
  have nonempty : (mnemonic ++ ' ' :: operands).isEmpty = false := by simp
  simp only [parseLine, uncommented, untrimmed, nonempty, head, tail, parsed, meaning]
  rfl

theorem parseNumber_blank_decimal (n : Nat) : parseNumber (trimBlanks (' ' :: decimal n)) = some n := by
  rw [trimBlanks_blank_cons, trimBlanks_decimal, parseNumber_decimal]

theorem comma_not_mem_blank_decimal (n : Nat) : ',' ∉ ' ' :: decimal n := by
  simp [comma_not_mem_decimal n]

theorem comment_not_mem_decimal (n : Nat) : ';' ∉ decimal n := fun h =>
  absurd (decimal_isDigit n ';' h) (by decide)

theorem isBlank_head?_decimal_append (n : Nat) (t : Text) (c : Char) (h : (decimal n ++ t).head? = some c) :
    isBlank c = false := by
  rw [List.head?_append_of_ne_nil _ (decimal_ne_nil n)] at h
  exact isBlank_of_isDigit c (decimal_isDigit n c (List.mem_of_head? h))

/-- A text that ends in a printed number ends in no blank. -/
theorem isBlank_getLast?_append_decimal (t : Text) (n : Nat) (c : Char) (h : (t ++ decimal n).getLast? = some c) :
    isBlank c = false := by
  rw [List.getLast?_append_of_ne_nil _ (decimal_ne_nil n)] at h
  exact isBlank_of_isDigit c (decimal_isDigit n c (List.mem_of_getLast? h))

theorem parseOperands_one (a : Nat) : parseOperands (' ' :: decimal a) = some [a] := by
  have nonempty : (trimBlanks (' ' :: decimal a)).isEmpty = false := by
    rw [trimBlanks_blank_cons, trimBlanks_decimal]
    simpa using decimal_ne_nil a
  rw [parseOperands, nonempty, splitCommas_no_comma _ (comma_not_mem_blank_decimal a)]
  simp [parseNumber_blank_decimal]

theorem parseOperands_two (a b : Nat) :
    parseOperands (' ' :: (decimal a ++ ", ".toList ++ decimal b)) = some [a, b] := by
  have shape : ' ' :: (decimal a ++ ", ".toList ++ decimal b) = (' ' :: decimal a) ++ ',' :: ' ' :: decimal b := by
    rw [List.append_assoc]
    rfl
  have nonempty : (trimBlanks (' ' :: (decimal a ++ ", ".toList ++ decimal b))).isEmpty = false := by
    rw [trimBlanks_blank_cons, trimBlanks_eq_self _ ?first (isBlank_getLast?_append_decimal _ b)]
    case first => rw [List.append_assoc]; exact isBlank_head?_decimal_append a _
    simp
  rw [parseOperands, nonempty, shape, splitCommas_append _ _ (comma_not_mem_blank_decimal a),
    splitCommas_no_comma _ (comma_not_mem_blank_decimal b)]
  simp [parseNumber_blank_decimal]

theorem parseLine_one (mnemonic : Text) (a : Nat) (line : AsmLine) (word : isMnemonic mnemonic = true)
    (meaning : lineOf mnemonic [a] = some line) : parseLine (mnemonic ++ ' ' :: decimal a) = some [line] :=
  parseLine_of_operands mnemonic _ [a] line word (comment_not_mem_decimal a)
    (isBlank_getLast?_append_decimal [' '] a) (parseOperands_one a) meaning

theorem parseLine_two (mnemonic : Text) (a b : Nat) (line : AsmLine) (word : isMnemonic mnemonic = true)
    (meaning : lineOf mnemonic [a, b] = some line) :
    parseLine (mnemonic ++ ' ' :: (decimal a ++ ", ".toList ++ decimal b)) = some [line] := by
  refine parseLine_of_operands mnemonic _ [a, b] line word ?_ ?_ (parseOperands_two a b) meaning
  · simp [comment_not_mem_decimal]
  · exact isBlank_getLast?_append_decimal (' ' :: (decimal a ++ ", ".toList)) b

/-- The printed form of an instruction reads as its line (R45, R49). -/
theorem parseLine_printInstr (i : Instr) : parseLine (printInstr i) = some [lineOfInstr i] := by
  cases i with
  | tick => decide
  | ovfService => decide
  | input level =>
    rw [printInstr_input]
    exact parseLine_one "INPUT".toList _ _ rfl rfl
  | reset => decide
  | submitEdge d level =>
    rw [printInstr_submitEdge]
    exact parseLine_two "SUBMIT_EDGE".toList _ _ _ rfl rfl
  | submitEdgeMillis m level =>
    rw [printInstr_submitEdgeMillis]
    exact parseLine_two "SUBMIT_EDGE_MILLIS".toList _ _ _ rfl rfl
  | registerCallback h =>
    rw [printInstr_registerCallback]
    exact parseLine_one "REGISTER_CALLBACK".toList _ _ rfl rfl
  | powerOnReset => decide

theorem disassemble_encode (i : Instr) : disassemble (encode i) = printInstr i := by
  rw [disassemble, decode_encode]

/-- Settles O49: the text of an encoding is the printed instruction, and reads back as the line that denotes it. -/
theorem disassemblyReadsBack : Obligations.DisassemblyReadsBack := by
  intro i
  rw [disassemble_encode]
  refine ⟨parseLine_printInstr i, ?_⟩
  rw [assembleLine_of_parseLine _ _ (parseLine_printInstr i), expandLine_lineOfInstr]
  rfl

end Sys2Proof.Machine
end
